-- ==== Sys2Proof/Word.lean ====
section
/-! DEFINITION. The word and address types of the machine (spec/00_scope.md R1, R3): the addressable unit, a register, a data word and
an instruction are all one 16-bit word; an address is 11 bits. -/

namespace Sys2Proof

/-- A 16-bit word: a register, a memory word, an instruction (R1). Bit 15 is the most significant (R7). -/
abbrev Word := BitVec 16

/-- An 11-bit word address, 0x000 to 0x7FF (R3). -/
abbrev Addr := BitVec 11

end Sys2Proof
end

