-- ==== Sys2Proof/Config.lean ====
section
/-! DEFINITION. What one implementation fixes and the spec leaves open: the parameters of spec/00_scope.md R6, each a field of `Params`,
and the free values of R8 (`UNSPEC16`, unspecified flag bits), which have no body, so that nothing can be proved of their value. -/

namespace Sys2Proof.Config

/-- `ADDR_HIGH` (R6, R35, D8): what bits 15 to 11 of a register-computed address do. -/
inductive AddrHigh where
  /-- The bits are dropped. -/
  | ignore
  /-- A non-zero bit stops the model with the fault `AddressRange`. -/
  | refuse
deriving DecidableEq, Repr

/-- `FLAGS_ON_ALU` (R6, R112, D13): what ADD, SUB, SHL, SHR, AND, OR and NOT do to the flags. -/
inductive FlagsOnAlu where
  /-- No flag changes. -/
  | preserve
  /-- The flags of the operation itself, by `alu_flags` of R112. -/
  | update
  /-- All four flags become independent unspecified bits. -/
  | havoc
deriving DecidableEq, Repr

/-- `MBR_MODEL` (R6, R111, D16): which instructions use R7 as the ALU's operand latch. -/
inductive MbrModel where
  /-- Classes A and B. -/
  | conservative
  /-- Class A only. -/
  | alu2
  /-- None: R7 is an ordinary register. -/
  | transparent
deriving DecidableEq, Repr

/-- The direction the stack grows in (`STACK`, R95, D9). -/
inductive StackGrowth where
  | down
  | up
deriving DecidableEq, Repr

/-- What R5 points at (`STACK`, R95, D9): the last word pushed, or the next free word. -/
inductive StackPointing where
  | full
  | empty
deriving DecidableEq, Repr

/-- The order in which POP takes its operands (`STACK`, R95, D9). -/
inductive PopOrder where
  /-- In operand order, as PUSH does. -/
  | same
  /-- Last operand first. -/
  | reversed
deriving DecidableEq, Repr

/-- `STACK` (R6, D9): the stack convention. -/
structure StackConvention where
  growth   : StackGrowth
  pointing : StackPointing
  popOrder : PopOrder
deriving DecidableEq, Repr

/-- The open parameters of the machine (R6) that an instruction or a reset depends on. `INIT_MEM` is the argument of
`Machine.State.launch`; `IMAGE_BYTE_ORDER` and `ASM_SYNTAX` cannot be observed by the machine (R33, R66). -/
structure Params where
  /-- `RESET_PC` (D17): the pc after reset. -/
  resetPc          : Addr
  /-- `IMM8_SIGNED` (R55, D5): the 8-bit constant of MOV and CMP is sign-extended. -/
  imm8Signed       : Bool
  /-- `IMM5_SIGNED` (R56, D6): the 5-bit constant of ADD and SUB is sign-extended. -/
  imm5Signed       : Bool
  /-- `ADDR_HIGH` (R35, D8). -/
  addrHigh         : AddrHigh
  /-- `FLAGS_ON_ALU` (R112, D13). -/
  flagsOnAlu       : FlagsOnAlu
  /-- `BGT_EXCLUDES_EQUAL` (R149, D15): BGT also requires ZR = 0. -/
  bgtExcludesEqual : Bool
  /-- `MBR_MODEL` (R111, D16). -/
  mbrModel         : MbrModel
  /-- `STACK` (R95, D9). -/
  stack            : StackConvention
deriving DecidableEq, Repr

/-- `UNSPEC16` (R8): the n-th unconstrained 16-bit value a run draws. It has no body: a claim must hold for every value
(notes/assumptions/7.md). -/
opaque freeWord : Nat → Word

/-- The n-th unconstrained flag bit a run draws (R112; notes/assumptions/7.md). -/
opaque freeBit : Nat → Bool

end Sys2Proof.Config
end

