-- ==== Sys2Proof/Machine/Params.lean ====
section
/-! DEFINITION. The defaults of the open parameters (spec/00_scope.md R6, decisions D5 to D17 of spec/92_eei_decisions.md). -/

namespace Sys2Proof.Machine

/-- `STACK` by default: full descending, POP left to right as PUSH (R95, D9). -/
def defaultStack : Config.StackConvention where
  growth := .down
  pointing := .full
  popOrder := .same

/-- The defaults of R6. -/
def defaultParams : Config.Params where
  resetPc := 0x000#11
  imm8Signed := true
  imm5Signed := true
  addrHigh := .ignore
  flagsOnAlu := .preserve
  bgtExcludesEqual := false
  mbrModel := .conservative
  stack := defaultStack

end Sys2Proof.Machine
end

