-- ==== Sys2Proof/Syntax.lean ====
section
/-! DEFINITION. The instructions: one constructor per row of spec/opcode_table.json (opcodes 0 to 28, spec/30_encoding.md R62), over the
register names of spec/10_state.md R11. -/

namespace Sys2Proof

/-- The eight registers (R10, R11), each nameable in every register field (R54). -/
inductive Reg where
  /-- General purpose. -/
  | r0
  /-- General purpose. -/
  | r1
  /-- General purpose. -/
  | r2
  /-- General purpose. -/
  | r3
  /-- Frame pointer: a software convention only. -/
  | r4
  /-- Stack pointer: PUSH and POP use it (R95). -/
  | r5
  /-- Link register: BLN writes it, RET reads it (R142, R143). -/
  | r6
  /-- Memory buffer register: LDA writes it, STRA reads it, and it is the ALU's operand latch (R12, R111). -/
  | r7
deriving DecidableEq, Repr

/-- The 29 instructions. Operands stand in the order of the instruction headings: destination first, then sources. Constants and
labels are the bits of their field, not yet widened. -/
inductive Instr where
  /-- MOV reg_dst #constant (R80). -/
  | movImm (rd : Reg) (const8 : BitVec 8)
  /-- MOV reg_dst reg_src (R81). -/
  | movReg (rd rs : Reg)
  /-- LDA label (R91). -/
  | lda (label : Addr)
  /-- LDR reg_dst &reg_adr #offset (R92). -/
  | ldr (rd ra : Reg) (off5 : BitVec 5)
  /-- STRA label (R93). -/
  | stra (label : Addr)
  /-- STRR reg_src &reg_adr #offset (R94). -/
  | strr (rs ra : Reg) (off5 : BitVec 5)
  /-- PUSH reg_a [reg_b [reg_c]] (R96): the registers transferred, in operand order. -/
  | push (regs : List Reg)
  /-- POP reg_a [reg_b [reg_c]] (R97): the registers transferred, in operand order. -/
  | pop (regs : List Reg)
  /-- ADD reg_dst reg_a #constant (R113). -/
  | addImm (rd ra : Reg) (const5 : BitVec 5)
  /-- ADD reg_dst reg_a reg_b (R114). -/
  | addReg (rd ra rb : Reg)
  /-- SUB reg_dst reg_a #constant (R115). -/
  | subImm (rd ra : Reg) (const5 : BitVec 5)
  /-- SUB reg_dst reg_a reg_b (R116). -/
  | subReg (rd ra rb : Reg)
  /-- SHL reg_dst reg_src #constant (R117). -/
  | shl (rd rs : Reg) (const4 : BitVec 4)
  /-- SHR reg_dst reg_src #constant (R118). -/
  | shr (rd rs : Reg) (const4 : BitVec 4)
  /-- AND reg_dst reg_a reg_b (R119). -/
  | and (rd ra rb : Reg)
  /-- OR reg_dst reg_a reg_b (R120). -/
  | or (rd ra rb : Reg)
  /-- NOT reg_dst reg_src (R121). -/
  | not (rd rs : Reg)
  /-- JMP label (R141). -/
  | jmp (label : Addr)
  /-- BLN label (R142). -/
  | bln (label : Addr)
  /-- RET (R143). -/
  | ret
  /-- CMP reg_a #constant (R145). -/
  | cmpImm (ra : Reg) (const8 : BitVec 8)
  /-- CMP reg_a reg_b (R146). -/
  | cmpReg (ra rb : Reg)
  /-- BEQ label (R147). -/
  | beq (label : Addr)
  /-- BNE label (R148). -/
  | bne (label : Addr)
  /-- BGT label (R149). -/
  | bgt (label : Addr)
  /-- BGTU label (R150). -/
  | bgtu (label : Addr)
  /-- BLT label (R151). -/
  | blt (label : Addr)
  /-- BLTU label (R152). -/
  | bltu (label : Addr)
  /-- HALT (R153). -/
  | halt
deriving DecidableEq, Repr

/-- What decoding a word answers (R70): the one instruction it is, or one of the two rejections. -/
inductive Decoded where
  /-- The word is this instruction. -/
  | instr (i : Instr)
  /-- Opcode 29, 30 or 31 (R63). -/
  | illegalOpcode (inst : Word)
  /-- PUSH or POP with count 0 (R64). -/
  | reservedEncoding (inst : Word)
deriving DecidableEq, Repr

end Sys2Proof
end

