-- ==== Sys2Proof/Machine/State.lean ====
section
/-! DEFINITION. The state of the machine (spec/10_state.md R10 to R21), the faults a step can stop with (spec/60_exceptions.md R171),
and the state after reset. Plain data; the operations on it are in Machine/Ops.lean. -/

namespace Sys2Proof.Machine

/-- The eight 16-bit registers (R10, R11). -/
structure Regs where
  r0 : Word
  r1 : Word
  r2 : Word
  r3 : Word
  r4 : Word
  r5 : Word
  r6 : Word
  r7 : Word
deriving DecidableEq, Repr

/-- FLAGS: four independent bits; the register has no observable layout (R15). -/
structure Flags where
  /-- Zero. -/
  zr : Bool
  /-- Negative. -/
  ng : Bool
  /-- Overflow. -/
  ov : Bool
  /-- Carry (no borrow). -/
  ca : Bool
deriving DecidableEq, Repr

/-- One listed memory word: its address, below 2048, and its 16 bits. The addressable unit is the word, and bytes do not exist inside
the machine (R30, R33; notes/assumptions/5.md). -/
abbrev Cell := Nat × Word

/-- The memory (R18): the words that have a value, addresses strictly rising. An unlisted word has no value (R21, R34). -/
abbrev Memory := List Cell

/-- The state of the machine. -/
structure State where
  /-- The open parameters of R6; no step writes them (the MODEL's own field, notes/assumptions/6.md). -/
  params : Config.Params
  /-- R0 to R7. -/
  regs   : Regs
  /-- The program counter (R13). -/
  pc     : Addr
  /-- FLAGS (R15). -/
  flags  : Flags
  /-- The instruction being executed (R14, R17). -/
  ir     : Word
  /-- The address of the latest memory access (R14, R17). -/
  mar    : Addr
  /-- The buffered ALU output (R17; notes/assumptions/8.md). -/
  acc    : Word
  /-- The memory (R18). -/
  mem    : Memory
  /-- The run state (R19). -/
  halted : Bool
  /-- How many free values have been drawn (the MODEL's own field, notes/assumptions/7.md). -/
  draws  : Nat
deriving DecidableEq, Repr

/-- The stops of the model (R171). Each carries the state the stop leaves (R174), which nothing can observe. -/
inductive Fault where
  /-- Opcode 29, 30 or 31, raised by step after decoding (R63). Safe: the hardware's behaviour is not documented. -/
  | illegalOpcode (inst : Word) (stopped : State)
  /-- PUSH or POP with count 0, raised by step after decoding, and by their meanings for an empty register list (R64, R96, R97).
  Safe: the hardware's behaviour is not documented. -/
  | reservedEncoding (inst : Word) (stopped : State)
  /-- A fetch or a load of a memory word that has no value (R34, D29). Safe: the hardware goes on with an unknown word. -/
  | unsetRead (addr : Addr) (stopped : State)
  /-- A register-computed address with a non-zero bit above bit 10, only when `ADDR_HIGH = refuse` (R35). Safe. -/
  | addressRange (v : Word) (stopped : State)
deriving DecidableEq, Repr

/-- The refusals of the model: no instruction of the table is refused. -/
inductive Refusal where
  /-- An instruction without a meaning, raised by exec's arm alone; no arm raises it now. Safe. -/
  | notModelled (mnemonic : String)
deriving DecidableEq, Repr

/-- The machine right after reset (R21, R191), parameters at their defaults (R6) and no memory image: `INIT_MEM` is the loader's
(see `State.launch`). The spec gives registers, flags, IR, MAR and ACC no value; zero is the model's choice
(notes/assumptions/1.md, 2.md, 3.md). -/
def State.reset : State where
  params := defaultParams
  regs := ⟨0, 0, 0, 0, 0, 0, 0, 0⟩
  pc := defaultParams.resetPc
  flags := ⟨false, false, false, false⟩
  ir := 0
  mar := 0
  acc := 0
  mem := []
  halted := false
  draws := 0

end Sys2Proof.Machine
end

