-- ==== Sys2Proof/Machine/Flags.lean ====
section
/-! DEFINITION. Every flag computation of the spec: `cmp_flags` (spec/43_control_flow.md R144) and `alu_flags`
(spec/42_arith_logic.md R112). -/

namespace Sys2Proof.Machine

/-- `cmp_flags(a, b)` (R144): the flags of the 16-bit subtraction `a - b`. -/
def cmpFlags (a b : Word) : Flags where
  zr := a - b == 0
  ng := (a - b).msb
  ov := a.msb != b.msb && (a - b).msb != a.msb
  ca := BitVec.ule b a

/-- `alu_flags` of ADD (R112): carry out of bit 15 and signed overflow. -/
def addFlags (a b : Word) : Flags where
  zr := a + b == 0
  ng := (a + b).msb
  ov := a.msb == b.msb && (a + b).msb != a.msb
  ca := decide (65536 ≤ a.toNat + b.toNat)

/-- `alu_flags` of SHL, SHR, AND, OR and NOT (R112): CA and OV are unspecified bits. -/
def logicFlags (r : Word) (ov ca : Bool) : Flags where
  zr := r == 0
  ng := r.msb
  ov := ov
  ca := ca

end Sys2Proof.Machine
end

