-- ==== Sys2Proof/WellFormed.lean ====
section
/-! DEFINITION. Which instruction terms have an encoding. Every operand but the register list of PUSH and POP is a field of its exact
width, so only that list can be ill-formed (spec/30_encoding.md R60, R64). -/

namespace Sys2Proof

/-- PUSH and POP transfer one, two or three registers (R60); a count of 0 is reserved (R64). -/
def operandCountOk (regs : List Reg) : Bool := 1 ≤ regs.length && regs.length ≤ 3

/-- The instruction can be written in one word. -/
def WellFormed (i : Instr) : Bool :=
  match i with
  | .push regs => operandCountOk regs
  | .pop regs => operandCountOk regs
  | .movImm _ _ | .movReg _ _ | .lda _ | .ldr _ _ _ | .stra _ | .strr _ _ _ => true
  | .addImm _ _ _ | .addReg _ _ _ | .subImm _ _ _ | .subReg _ _ _ | .shl _ _ _ | .shr _ _ _ => true
  | .and _ _ _ | .or _ _ _ | .not _ _ => true
  | .jmp _ | .bln _ | .ret | .cmpImm _ _ | .cmpReg _ _ => true
  | .beq _ | .bne _ | .bgt _ | .bgtu _ | .blt _ | .bltu _ | .halt => true

end Sys2Proof
end

