-- ==== Sys2Proof/Decode.lean ====
section
/-! DEFINITION. Decoding and encoding of the 16-bit instruction word (spec/30_encoding.md R50 to R64, R70). Decoding is total: every word
is one instruction or is rejected by name. The encoder writes unused bits as 0 (R61). -/

namespace Sys2Proof

/-! ### Register fields (R54) -/

/-- The register a 3-bit field names. -/
def Reg.ofBits (b : BitVec 3) : Reg :=
  match b.toNat with
  | 0 => .r0
  | 1 => .r1
  | 2 => .r2
  | 3 => .r3
  | 4 => .r4
  | 5 => .r5
  | 6 => .r6
  | _ => .r7

/-- The 3-bit field that names a register. -/
def Reg.toBits (r : Reg) : BitVec 3 :=
  match r with
  | .r0 => 0#3
  | .r1 => 1#3
  | .r2 => 2#3
  | .r3 => 3#3
  | .r4 => 4#3
  | .r5 => 5#3
  | .r6 => 6#3
  | .r7 => 7#3

/-! ### The fields of a word (R51, R53, R70) -/

/-- `inst[15:11]`, the opcode. -/
def opcodeField (w : Word) : BitVec 5 := w.extractLsb' 11 5
/-- `inst[10:8]`, Reg Pos 0. -/
def reg0Field (w : Word) : Reg := Reg.ofBits (w.extractLsb' 8 3)
/-- `inst[7:5]`, Reg Pos 1. -/
def reg1Field (w : Word) : Reg := Reg.ofBits (w.extractLsb' 5 3)
/-- `inst[4:2]`, Reg Pos 2. -/
def reg2Field (w : Word) : Reg := Reg.ofBits (w.extractLsb' 2 3)
/-- `inst[7:0]`, the 8-bit constant of T1. -/
def const8Field (w : Word) : BitVec 8 := w.extractLsb' 0 8
/-- `inst[4:0]`, the tail `f1` of T2: an offset or a 5-bit constant. -/
def f1Field (w : Word) : BitVec 5 := w.extractLsb' 0 5
/-- `inst[4:1]`, the shift count of T5 (R58, C2). -/
def const4Field (w : Word) : BitVec 4 := w.extractLsb' 1 4
/-- `inst[10:0]`, the tail `f2` of T3: a label. -/
def f2Field (w : Word) : Addr := w.extractLsb' 0 11
/-- `inst[1:0]`, the number of registers of T4N (R60). -/
def countField (w : Word) : BitVec 2 := w.extractLsb' 0 2

/-- The first `count` of the three register fields of T4N, in order (R60, R96). -/
def countedRegs (w : Word) : List Reg :=
  match (countField w).toNat with
  | 0 => []
  | 1 => [reg0Field w]
  | 2 => [reg0Field w, reg1Field w]
  | _ => [reg0Field w, reg1Field w, reg2Field w]

/-- PUSH and POP: count 0 is reserved (R64), otherwise the counted registers. -/
def decodeCounted (mk : List Reg → Instr) (w : Word) : Decoded :=
  if countField w = 0#2 then .reservedEncoding w else .instr (mk (countedRegs w))

/-- The decoding procedure of R70: the opcode alone selects the instruction (R62), and unused bits take no part (R61). -/
def decode (w : Word) : Decoded :=
  match (opcodeField w).toNat with
  | 0 => .instr (.movImm (reg0Field w) (const8Field w))
  | 1 => .instr (.movReg (reg0Field w) (reg1Field w))
  | 2 => .instr (.lda (f2Field w))
  | 3 => .instr (.ldr (reg0Field w) (reg1Field w) (f1Field w))
  | 4 => .instr (.stra (f2Field w))
  | 5 => .instr (.strr (reg0Field w) (reg1Field w) (f1Field w))
  | 6 => decodeCounted .push w
  | 7 => decodeCounted .pop w
  | 8 => .instr (.addImm (reg0Field w) (reg1Field w) (f1Field w))
  | 9 => .instr (.addReg (reg0Field w) (reg1Field w) (reg2Field w))
  | 10 => .instr (.subImm (reg0Field w) (reg1Field w) (f1Field w))
  | 11 => .instr (.subReg (reg0Field w) (reg1Field w) (reg2Field w))
  | 12 => .instr (.shl (reg0Field w) (reg1Field w) (const4Field w))
  | 13 => .instr (.shr (reg0Field w) (reg1Field w) (const4Field w))
  | 14 => .instr (.and (reg0Field w) (reg1Field w) (reg2Field w))
  | 15 => .instr (.or (reg0Field w) (reg1Field w) (reg2Field w))
  | 16 => .instr (.not (reg0Field w) (reg1Field w))
  | 17 => .instr (.jmp (f2Field w))
  | 18 => .instr (.bln (f2Field w))
  | 19 => .instr .ret
  | 20 => .instr (.cmpImm (reg0Field w) (const8Field w))
  | 21 => .instr (.cmpReg (reg0Field w) (reg1Field w))
  | 22 => .instr (.beq (f2Field w))
  | 23 => .instr (.bne (f2Field w))
  | 24 => .instr (.bgt (f2Field w))
  | 25 => .instr (.bgtu (f2Field w))
  | 26 => .instr (.blt (f2Field w))
  | 27 => .instr (.bltu (f2Field w))
  | 28 => .instr .halt
  | _ => .illegalOpcode w

/-! ### Encoding -/

/-- Type T1: opcode, Reg Pos 0, 8-bit constant. -/
def packT1 (op : BitVec 5) (x : Reg) (c : BitVec 8) : Word := op ++ x.toBits ++ c
/-- Type T2: opcode, Reg Pos 0, Reg Pos 1, `f1`. -/
def packT2 (op : BitVec 5) (x y : Reg) (f1 : BitVec 5) : Word := op ++ x.toBits ++ y.toBits ++ f1
/-- Type T3: opcode, `f2`. -/
def packT3 (op : BitVec 5) (f2 : Addr) : Word := op ++ f2
/-- Types T4 (low bits unused, 0) and T4N (low bits the count). -/
def packT4 (op : BitVec 5) (x y z : Reg) (low : BitVec 2) : Word := op ++ x.toBits ++ y.toBits ++ z.toBits ++ low
/-- Type T5: opcode, Reg Pos 0, Reg Pos 1, 4-bit count, one unused bit. -/
def packT5 (op : BitVec 5) (x y : Reg) (n : BitVec 4) : Word := op ++ x.toBits ++ y.toBits ++ n ++ 0#1

/-- Type T4N: the register fields beyond the count are written as 0 (R60). A list longer than three has no encoding. -/
def packCounted (op : BitVec 5) (regs : List Reg) : Word :=
  match regs with
  | [] => packT4 op .r0 .r0 .r0 0#2
  | [a] => packT4 op a .r0 .r0 1#2
  | [a, b] => packT4 op a b .r0 2#2
  | a :: b :: c :: _ => packT4 op a b c 3#2

/-- The opcode of the table (R62). -/
def opcodeOf (i : Instr) : BitVec 5 :=
  match i with
  | .movImm _ _ => 0#5
  | .movReg _ _ => 1#5
  | .lda _ => 2#5
  | .ldr _ _ _ => 3#5
  | .stra _ => 4#5
  | .strr _ _ _ => 5#5
  | .push _ => 6#5
  | .pop _ => 7#5
  | .addImm _ _ _ => 8#5
  | .addReg _ _ _ => 9#5
  | .subImm _ _ _ => 10#5
  | .subReg _ _ _ => 11#5
  | .shl _ _ _ => 12#5
  | .shr _ _ _ => 13#5
  | .and _ _ _ => 14#5
  | .or _ _ _ => 15#5
  | .not _ _ => 16#5
  | .jmp _ => 17#5
  | .bln _ => 18#5
  | .ret => 19#5
  | .cmpImm _ _ => 20#5
  | .cmpReg _ _ => 21#5
  | .beq _ => 22#5
  | .bne _ => 23#5
  | .bgt _ => 24#5
  | .bgtu _ => 25#5
  | .blt _ => 26#5
  | .bltu _ => 27#5
  | .halt => 28#5

/-- The word of a well-formed instruction, unused bits 0 (R51, R61, R62). -/
def encode (i : Instr) : Word :=
  match i with
  | .movImm rd c => packT1 0#5 rd c
  | .movReg rd rs => packT2 1#5 rd rs 0#5
  | .lda l => packT3 2#5 l
  | .ldr rd ra o => packT2 3#5 rd ra o
  | .stra l => packT3 4#5 l
  | .strr rs ra o => packT2 5#5 rs ra o
  | .push regs => packCounted 6#5 regs
  | .pop regs => packCounted 7#5 regs
  | .addImm rd ra c => packT2 8#5 rd ra c
  | .addReg rd ra rb => packT4 9#5 rd ra rb 0#2
  | .subImm rd ra c => packT2 10#5 rd ra c
  | .subReg rd ra rb => packT4 11#5 rd ra rb 0#2
  | .shl rd rs n => packT5 12#5 rd rs n
  | .shr rd rs n => packT5 13#5 rd rs n
  | .and rd ra rb => packT4 14#5 rd ra rb 0#2
  | .or rd ra rb => packT4 15#5 rd ra rb 0#2
  | .not rd rs => packT2 16#5 rd rs 0#5
  | .jmp l => packT3 17#5 l
  | .bln l => packT3 18#5 l
  | .ret => packT3 19#5 0#11
  | .cmpImm ra c => packT1 20#5 ra c
  | .cmpReg ra rb => packT2 21#5 ra rb 0#5
  | .beq l => packT3 22#5 l
  | .bne l => packT3 23#5 l
  | .bgt l => packT3 24#5 l
  | .bgtu l => packT3 25#5 l
  | .blt l => packT3 26#5 l
  | .bltu l => packT3 27#5 l
  | .halt => packT3 28#5 0#11

/-- The bits of a word that its instruction does not use (R61), as a mask: `f1` of MOV register, NOT and CMP register; `f2` of RET and
HALT; bits 1:0 of type T4; bit 0 of type T5; the register fields of PUSH and POP beyond the count. -/
def unusedMask (w : Word) : Word :=
  match (opcodeField w).toNat with
  | 1 | 16 | 21 => 0x001F#16
  | 6 | 7 =>
    match (countField w).toNat with
    | 1 => 0x00FC#16
    | 2 => 0x001C#16
    | _ => 0x0000#16
  | 9 | 11 | 14 | 15 => 0x0003#16
  | 12 | 13 => 0x0001#16
  | 19 | 28 => 0x07FF#16
  | _ => 0x0000#16

/-- The instruction the decoder reads from an instruction of `nbits` bits whose bits are `w`, bit 0 least significant. An instruction
is one 16-bit word stored whole (R33, R50), so there is nothing to lay out; bits above `nbits` are 0. -/
def decodeTableWord (nbits w : Nat) : Option Instr :=
  match decode (BitVec.ofNat 16 (w % 2 ^ nbits)) with
  | .instr i => some i
  | .illegalOpcode _ => none
  | .reservedEncoding _ => none

end Sys2Proof
end

