-- ==== Sys2Proof/Machine/Ops.lean ====
section
/-! DEFINITION. The named operations over registers, memory and the free values, the fetch, and the launch. The machine has no exception
entry and no return from one (spec/60_exceptions.md R170, R174, R175): a situation the document gives no meaning stops the model with a
`Fault` that carries the state it leaves. -/

namespace Sys2Proof.Machine

/-! ### Registers -/

/-- `x[r]` in a register file (R8, R10). -/
def Regs.get (x : Regs) (r : Reg) : Word :=
  match r with
  | .r0 => x.r0
  | .r1 => x.r1
  | .r2 => x.r2
  | .r3 => x.r3
  | .r4 => x.r4
  | .r5 => x.r5
  | .r6 => x.r6
  | .r7 => x.r7

/-- `x[r] <- v` in a register file (R8). No register is hardwired (R10). -/
def Regs.set (x : Regs) (r : Reg) (v : Word) : Regs :=
  match r with
  | .r0 => { x with r0 := v }
  | .r1 => { x with r1 := v }
  | .r2 => { x with r2 := v }
  | .r3 => { x with r3 := v }
  | .r4 => { x with r4 := v }
  | .r5 => { x with r5 := v }
  | .r6 => { x with r6 := v }
  | .r7 => { x with r7 := v }

/-- `x[r]` (R8). -/
def State.getReg (s : State) (r : Reg) : Word := s.regs.get r
/-- `x[r] <- v` (R8). -/
def State.setReg (s : State) (r : Reg) (v : Word) : State := { s with regs := s.regs.set r v }
/-- `pc <- t` (R8). -/
def State.setPc (s : State) (t : Addr) : State := { s with pc := t }
/-- Write of all four flags. -/
def State.setFlags (s : State) (f : Flags) : State := { s with flags := f }
/-- ACC holds an ALU output (R17). -/
def State.setAcc (s : State) (v : Word) : State := { s with acc := v }
/-- MAR holds the address of the memory access in progress (R17). -/
def State.setMar (s : State) (a : Addr) : State := { s with mar := a }
/-- IR holds the instruction being executed (R14, R17). -/
def State.setIr (s : State) (inst : Word) : State := { s with ir := inst }
/-- `halted <- 1` (R153). -/
def State.halt (s : State) : State := { s with halted := true }
/-- The memory replaced. -/
def State.setMem (s : State) (m : Memory) : State := { s with mem := m }

/-! ### Free values (R8: `UNSPEC16`) -/

/-- `n` free values have been drawn. -/
def State.drew (s : State) (n : Nat) : State := { s with draws := s.draws + n }
/-- The next `UNSPEC16`. -/
def State.unspec16 (s : State) : Word := Config.freeWord s.draws
/-- The `k`-th next unspecified flag bit (R112). -/
def State.unspecBit (s : State) (k : Nat) : Bool := Config.freeBit (s.draws + k)

/-- After an instruction whose use of the ALU the spec does not state (class B of R111), ACC holds a free value
(notes/assumptions/8.md). -/
def State.openAcc (s : State) : State := (s.setAcc s.unspec16).drew 1

/-! ### Memory (R18, R34) -/

/-- The word at an address, if it has a value. -/
def Memory.read (m : Memory) (a : Nat) : Option Word :=
  match m with
  | [] => none
  | (k, w) :: rest => if k = a then some w else Memory.read rest a

/-- The memory with a word written; addresses stay strictly rising. -/
def Memory.write (m : Memory) (a : Nat) (v : Word) : Memory :=
  match m with
  | [] => [(a, v)]
  | (k, w) :: rest =>
    if a < k then (a, v) :: (k, w) :: rest
    else if a = k then (a, v) :: rest
    else (k, w) :: Memory.write rest a v

/-- The addresses are strictly rising, none below `lo`, all below 2048 (R30). -/
def Memory.wfFrom (lo : Nat) (m : Memory) : Bool :=
  match m with
  | [] => true
  | (k, _) :: rest => decide (lo ≤ k) && decide (k < 2048) && Memory.wfFrom (k + 1) rest

/-- The canonical form of memory. -/
def Memory.wf (m : Memory) : Bool := Memory.wfFrom 0 m

/-- The memory an image gives (`INIT_MEM`, R6, R18). If an image names an address twice, its first word counts. -/
def Memory.load (image : List (Addr × Word)) : Memory :=
  match image with
  | [] => []
  | (a, v) :: rest => Memory.write (Memory.load rest) a.toNat v

/-- `mem[a]`: the word at an 11-bit address, if it has a value (R34). -/
def State.wordAt (s : State) (a : Addr) : Option Word := Memory.read s.mem a.toNat

/-- `MemRead(a, 1)` (R34): the word and the state, MAR holding the address; a word without a value raises `UnsetRead`. -/
def memRead (a : Addr) (s : State) : Except Fault (Word × State) :=
  match s.wordAt a with
  | some v => .ok (v, s.setMar a)
  | none => .error (.unsetRead a (s.setMar a))

/-- `MemWrite(a, 1, v)` (R34): all 16 bits, MAR holding the address. -/
def memWrite (a : Addr) (v : Word) (s : State) : State := (s.setMar a).setMem (Memory.write s.mem a.toNat v)

/-! ### Fetch (R14) -/

/-- `inst <- MemRead(pc, 1)`, `pc <- pc + 1` modulo 2048, IR holding `inst`. -/
def fetch (s : State) : Except Fault (Word × State) :=
  match memRead s.pc s with
  | .ok (inst, t) => .ok (inst, (t.setIr inst).setPc (s.pc + 1))
  | .error f => .error f

/-! ### Launch (R191, R197) -/

/-- Reset with the parameters `p` and the memory image `INIT_MEM = image` the loader placed (R21, R191, R197). -/
def State.launch (p : Config.Params) (image : List (Addr × Word)) : State :=
  { State.reset with params := p, pc := p.resetPc, mem := Memory.load image }

end Sys2Proof.Machine
end

