-- ==== Sys2Proof/Machine/Operands.lean ====
section
/-! DEFINITION. Every operand form: constants and offsets (spec/30_encoding.md R55 to R58), effective addresses (spec/20_memory.md R35),
R7 as the ALU's operand latch (spec/42_arith_logic.md R111), and the effects the arithmetic and logic instructions share (R110, R112). -/

namespace Sys2Proof.Machine

/-! ### Constants and offsets -/

/-- `imm8` (R55). -/
def imm8 (p : Config.Params) (c : BitVec 8) : Word := if p.imm8Signed then c.signExtend 16 else c.zeroExtend 16
/-- `imm5` (R56). -/
def imm5 (p : Config.Params) (c : BitVec 5) : Word := if p.imm5Signed then c.signExtend 16 else c.zeroExtend 16
/-- `sext_16(off5)` (R57). -/
def offset (o : BitVec 5) : Word := o.signExtend 16
/-- The shift count of SHL and SHR as the second ALU operand (R58). -/
def shiftCount (n : BitVec 4) : Word := n.zeroExtend 16

/-! ### Addresses -/

/-- `v[10:0]`. -/
def lowAddr (v : Word) : Addr := v.extractLsb' 0 11

/-- `ea(v)` (R35); `none` stands for `raise AddressRange(v)`. -/
def effAddr (p : Config.Params) (v : Word) : Option Addr :=
  match p.addrHigh with
  | .ignore => some (lowAddr v)
  | .refuse => if v.extractLsb' 11 5 = 0#5 then some (lowAddr v) else none

/-! ### The operand latch (R111) -/

/-- The classes of R111. -/
inductive MbrClass where
  /-- ADD, SUB, AND, OR, CMP. -/
  | a
  /-- LDR, STRR, PUSH, POP, SHL, SHR. -/
  | b
deriving DecidableEq, Repr

/-- `mbr_active(K)` (R111). -/
def mbrActive (p : Config.Params) (k : MbrClass) : Bool :=
  match p.mbrModel, k with
  | .conservative, _ => true
  | .alu2, .a => true
  | .alu2, .b => false
  | .transparent, _ => false

/-- The register is R7 and the class uses the latch, so that the bus carries an unspecified value (R111). -/
def busOpen (p : Config.Params) (k : MbrClass) (r : Reg) : Bool := decide (r = .r7) && mbrActive p k

/-- `bus(r, K)` (R8, R111): the value read. -/
def busValue (k : MbrClass) (r : Reg) (s : State) : Word := if busOpen s.params k r then s.unspec16 else s.getReg r

/-- `bus(r, K)`: the state after the read, one free value drawn if the bus carried one. -/
def afterBus (k : MbrClass) (r : Reg) (s : State) : State := if busOpen s.params k r then s.drew 1 else s

/-- `clobber_mbr(K)` (R8, R111). -/
def clobberMbr (k : MbrClass) (s : State) : State :=
  if mbrActive s.params k then (s.setReg .r7 s.unspec16).drew 1 else s

/-! ### The ALU (R110, R112) -/

/-- The arithmetic and logic operations (R110). -/
inductive AluOp where
  | add
  | sub
  | shl
  | shr
  | and
  | or
  | not
deriving DecidableEq, Repr

/-- The 16-bit result of an operation (R110, R113 to R121). NOT has one operand; `b` is 0 there. -/
def aluResult (op : AluOp) (a b : Word) : Word :=
  match op with
  | .add => a + b
  | .sub => a - b
  | .shl => a <<< b.toNat
  | .shr => a >>> b.toNat
  | .and => a &&& b
  | .or => a ||| b
  | .not => ~~~a

/-- `alu_flags(op, a, b, r)` (R112), with the unspecified bits of the shifts and the logic operations drawn. -/
def aluFlags (op : AluOp) (a b r : Word) (s : State) : State :=
  match op with
  | .add => s.setFlags (addFlags a b)
  | .sub => s.setFlags (cmpFlags a b)
  | .shl | .shr | .and | .or | .not => (s.setFlags (logicFlags r (s.unspecBit 0) (s.unspecBit 1))).drew 2

/-- `alu_effects(op, a, b, r)` (R112), by the parameter `FLAGS_ON_ALU`. -/
def aluEffects (op : AluOp) (a b r : Word) (s : State) : State :=
  match s.params.flagsOnAlu with
  | .preserve => s
  | .update => aluFlags op a b r s
  | .havoc => (s.setFlags ⟨s.unspecBit 0, s.unspecBit 1, s.unspecBit 2, s.unspecBit 3⟩).drew 4

/-- An ALU result delivered to its destination: ACC holds it (R17), `x[rd] <- r`, then `alu_effects`. -/
def aluDeliver (op : AluOp) (rd : Reg) (a b : Word) (s : State) : State :=
  aluEffects op a b (aluResult op a b) ((s.setAcc (aluResult op a b)).setReg rd (aluResult op a b))

/-- The common pseudocode of the two-operand instructions (R113 to R120): the first operand over the bus, the second as given, the
latch clobbered, the result delivered. -/
def aluTwo (k : MbrClass) (op : AluOp) (rd ra : Reg) (b : Word) (s : State) : State :=
  aluDeliver op rd (busValue k ra s) b (clobberMbr k (afterBus k ra s))

/-- The common pseudocode of the two comparisons (R145, R146): all four flags written, ACC holding the difference, the latch clobbered. -/
def compare (ra : Reg) (b : Word) (s : State) : State :=
  clobberMbr .a (((afterBus .a ra s).setAcc (busValue .a ra s - b)).setFlags (cmpFlags (busValue .a ra s) b))

/-! ### Branches (R140) -/

/-- A conditional branch: `pc <- label` if the condition holds, else nothing. -/
def branchIf (taken : Bool) (label : Addr) (s : State) : State := if taken then s.setPc label else s

/-! ### The stack (R95) -/

/-- What a push adds to R5, by the direction of growth (R95, D9). -/
def pushDelta (p : Config.Params) : Word :=
  match p.stack.growth with
  | .down => -1
  | .up => 1

/-- The 16-bit address a push writes at (R95, D9). -/
def pushAt (p : Config.Params) (sp : Word) : Word :=
  match p.stack.pointing with
  | .full => sp + pushDelta p
  | .empty => sp

/-- The 16-bit address a pop reads at (R95, D9). -/
def popAt (p : Config.Params) (sp : Word) : Word :=
  match p.stack.pointing with
  | .full => sp
  | .empty => sp - pushDelta p

/-- One iteration of PUSH (R96): the register over the bus, R5 adjusted, the word written. -/
def pushOne (r : Reg) (s : State) : Except Fault State :=
  match effAddr s.params (pushAt s.params (s.getReg .r5)) with
  | some a =>
    .ok (memWrite a (busValue .b r s) ((afterBus .b r s).setReg .r5 (s.getReg .r5 + pushDelta s.params)))
  | none => .error (.addressRange (pushAt s.params (s.getReg .r5)) s)

/-- One iteration of POP (R97): the word read, R5 adjusted, the register written. -/
def popOne (r : Reg) (s : State) : Except Fault State :=
  match effAddr s.params (popAt s.params (s.getReg .r5)) with
  | some a =>
    match memRead a s with
    | .ok (v, t) => .ok ((t.setReg .r5 (s.getReg .r5 - pushDelta s.params)).setReg r v)
    | .error f => .error f
  | none => .error (.addressRange (popAt s.params (s.getReg .r5)) s)

/-- The iterations of PUSH, in the order of the list. -/
def pushAll (regs : List Reg) (s : State) : Except Fault State :=
  match regs with
  | [] => .ok s
  | r :: rest =>
    match pushOne r s with
    | .ok t => pushAll rest t
    | .error f => .error f

/-- The iterations of POP, in the order of the list. -/
def popAll (regs : List Reg) (s : State) : Except Fault State :=
  match regs with
  | [] => .ok s
  | r :: rest =>
    match popOne r s with
    | .ok t => popAll rest t
    | .error f => .error f

/-- The order POP takes its operands in (R95, D9). -/
def popSequence (p : Config.Params) (regs : List Reg) : List Reg :=
  match p.stack.popOrder with
  | .same => regs
  | .reversed => regs.reverse

/-- The end of a class B instruction that moves memory words: ACC is open, and the latch is clobbered (R111). -/
def endClassB (s : State) : State := clobberMbr .b s.openAcc

end Sys2Proof.Machine
end

