-- ==== Sys2Proof/Machine/ArithLogic.lean ====
section
/-! DEFINITION. The arithmetic and logic operations (spec/42_arith_logic.md R110 to R121). None touches pc or memory. -/

namespace Sys2Proof.Machine

/-- ADD reg_dst reg_a #constant (R113). -/
def execAddImm (rd ra : Reg) (const5 : BitVec 5) (s : State) : Host.Outcome State Fault Refusal :=
  .next (aluTwo .a .add rd ra (imm5 s.params const5) s)

/-- ADD reg_dst reg_a reg_b (R114). -/
def execAddReg (rd ra rb : Reg) (s : State) : Host.Outcome State Fault Refusal :=
  .next (aluTwo .a .add rd ra (s.getReg rb) s)

/-- SUB reg_dst reg_a #constant (R115). -/
def execSubImm (rd ra : Reg) (const5 : BitVec 5) (s : State) : Host.Outcome State Fault Refusal :=
  .next (aluTwo .a .sub rd ra (imm5 s.params const5) s)

/-- SUB reg_dst reg_a reg_b (R116). -/
def execSubReg (rd ra rb : Reg) (s : State) : Host.Outcome State Fault Refusal :=
  .next (aluTwo .a .sub rd ra (s.getReg rb) s)

/-- SHL reg_dst reg_src #constant (R117). -/
def execShl (rd rs : Reg) (const4 : BitVec 4) (s : State) : Host.Outcome State Fault Refusal :=
  .next (aluTwo .b .shl rd rs (shiftCount const4) s)

/-- SHR reg_dst reg_src #constant (R118): zero fill. -/
def execShr (rd rs : Reg) (const4 : BitVec 4) (s : State) : Host.Outcome State Fault Refusal :=
  .next (aluTwo .b .shr rd rs (shiftCount const4) s)

/-- AND reg_dst reg_a reg_b (R119). -/
def execAnd (rd ra rb : Reg) (s : State) : Host.Outcome State Fault Refusal :=
  .next (aluTwo .a .and rd ra (s.getReg rb) s)

/-- OR reg_dst reg_a reg_b (R120). -/
def execOr (rd ra rb : Reg) (s : State) : Host.Outcome State Fault Refusal :=
  .next (aluTwo .a .or rd ra (s.getReg rb) s)

/-- NOT reg_dst reg_src (R121): no `MBR_MODEL` class, R7 read exactly and not clobbered. -/
def execNot (rd rs : Reg) (s : State) : Host.Outcome State Fault Refusal :=
  .next (aluDeliver .not rd (s.getReg rs) 0 s)

end Sys2Proof.Machine
end

