-- ==== Sys2Proof/Machine/ControlFlow.lean ====
section
/-! DEFINITION. Control flow (spec/43_control_flow.md R140 to R153). When a meaning runs, pc already holds the address of the next
sequential instruction (spec/10_state.md R14). -/

namespace Sys2Proof.Machine

/-- JMP label (R141). -/
def execJmp (label : Addr) (s : State) : Host.Outcome State Fault Refusal :=
  .next (s.setPc label)

/-- BLN label (R142): R6 receives the advanced pc, zero-extended. -/
def execBln (label : Addr) (s : State) : Host.Outcome State Fault Refusal :=
  .next ((s.setReg .r6 (s.pc.zeroExtend 16)).setPc label)

/-- RET (R143): pc receives the low 11 bits of R6. -/
def execRet (s : State) : Host.Outcome State Fault Refusal :=
  .next (s.setPc (lowAddr (s.getReg .r6)))

/-- CMP reg_a #constant (R145). -/
def execCmpImm (ra : Reg) (const8 : BitVec 8) (s : State) : Host.Outcome State Fault Refusal :=
  .next (compare ra (imm8 s.params const8) s)

/-- CMP reg_a reg_b (R146): the second operand is read exactly, R7 too. -/
def execCmpReg (ra rb : Reg) (s : State) : Host.Outcome State Fault Refusal :=
  .next (compare ra (s.getReg rb) s)

/-- BEQ label (R147). -/
def execBeq (label : Addr) (s : State) : Host.Outcome State Fault Refusal :=
  .next (branchIf s.flags.zr label s)

/-- BNE label (R148). -/
def execBne (label : Addr) (s : State) : Host.Outcome State Fault Refusal :=
  .next (branchIf (!s.flags.zr) label s)

/-- BGT label (R149), by the parameter `BGT_EXCLUDES_EQUAL`. -/
def execBgt (label : Addr) (s : State) : Host.Outcome State Fault Refusal :=
  .next (branchIf (s.flags.ng == s.flags.ov && (!s.params.bgtExcludesEqual || !s.flags.zr)) label s)

/-- BGTU label (R150). -/
def execBgtu (label : Addr) (s : State) : Host.Outcome State Fault Refusal :=
  .next (branchIf (s.flags.ca && !s.flags.zr) label s)

/-- BLT label (R151). -/
def execBlt (label : Addr) (s : State) : Host.Outcome State Fault Refusal :=
  .next (branchIf (s.flags.ng != s.flags.ov) label s)

/-- BLTU label (R152). -/
def execBltu (label : Addr) (s : State) : Host.Outcome State Fault Refusal :=
  .next (branchIf (!s.flags.ca) label s)

/-- HALT (R153). -/
def execHalt (s : State) : Host.Outcome State Fault Refusal :=
  .next s.halt

end Sys2Proof.Machine
end

