-- ==== Sys2Proof/Machine/DataMovement.lean ====
section
/-! DEFINITION. The move instructions (spec/40_data_movement.md R80, R81). Neither touches pc, memory, flags or, unless it is the
destination, R7. -/

namespace Sys2Proof.Machine

/-- MOV reg_dst #constant (R80). -/
def execMovImm (rd : Reg) (const8 : BitVec 8) (s : State) : Host.Outcome State Fault Refusal :=
  .next (s.setReg rd (imm8 s.params const8))

/-- MOV reg_dst reg_src (R81); R7 is read exactly under every `MBR_MODEL`. -/
def execMovReg (rd rs : Reg) (s : State) : Host.Outcome State Fault Refusal :=
  .next (s.setReg rd (s.getReg rs))

end Sys2Proof.Machine
end

