-- ==== Sys2Proof/Machine/MemoryOps.lean ====
section
/-! DEFINITION. The memory operations (spec/41_memory_ops.md R90 to R97). None writes pc or a flag. -/

namespace Sys2Proof.Machine

/-- LDA label (R91): R7 receives the word at `label`, exactly. -/
def execLda (label : Addr) (s : State) : Host.Outcome State Fault Refusal :=
  match memRead label s with
  | .ok (v, t) => .next (t.setReg .r7 v)
  | .error f => .fault f

/-- LDR reg_dst &reg_adr #offset (R92). -/
def execLdr (rd ra : Reg) (off5 : BitVec 5) (s : State) : Host.Outcome State Fault Refusal :=
  match effAddr s.params (busValue .b ra s + offset off5) with
  | some a =>
    match memRead a (afterBus .b ra s) with
    | .ok (v, t) => .next ((endClassB t).setReg rd v)
    | .error f => .fault f
  | none => .fault (.addressRange (busValue .b ra s + offset off5) (afterBus .b ra s))

/-- STRA label (R93): the word at `label` receives R7. -/
def execStra (label : Addr) (s : State) : Host.Outcome State Fault Refusal :=
  .next (memWrite label (s.getReg .r7) s)

/-- STRR reg_src &reg_adr #offset (R94): the base, then the source, over the bus. -/
def execStrr (rs ra : Reg) (off5 : BitVec 5) (s : State) : Host.Outcome State Fault Refusal :=
  match effAddr s.params (busValue .b ra s + offset off5) with
  | some a =>
    .next (memWrite a (busValue .b rs (afterBus .b ra s)) (endClassB (afterBus .b rs (afterBus .b ra s))))
  | none => .fault (.addressRange (busValue .b ra s + offset off5) (afterBus .b rs (afterBus .b ra s)))

/-- PUSH (R96). -/
def execPush (regs : List Reg) (s : State) : Host.Outcome State Fault Refusal :=
  match regs with
  | [] => .fault (.reservedEncoding s.ir s)
  | r :: rest =>
    match pushAll (r :: rest) s with
    | .ok t => .next (endClassB t)
    | .error f => .fault f

/-- POP (R97). -/
def execPop (regs : List Reg) (s : State) : Host.Outcome State Fault Refusal :=
  match regs with
  | [] => .fault (.reservedEncoding s.ir s)
  | r :: rest =>
    match popAll (popSequence s.params (r :: rest)) s with
    | .ok t => .next (endClassB t)
    | .error f => .fault f

end Sys2Proof.Machine
end

