-- ==== Sys2Proof/Machine/Dispatch.lean ====
section
/-! DEFINITION. One arm per instruction. -/

namespace Sys2Proof.Machine

def exec (i : Instr) (s : State) : Host.Outcome State Fault Refusal :=
  match i with
  | .movImm rd c => Sys2Proof.Machine.execMovImm rd c s
  | .movReg rd rs => Sys2Proof.Machine.execMovReg rd rs s
  | .lda l => Sys2Proof.Machine.execLda l s
  | .ldr rd ra o => Sys2Proof.Machine.execLdr rd ra o s
  | .stra l => Sys2Proof.Machine.execStra l s
  | .strr rs ra o => Sys2Proof.Machine.execStrr rs ra o s
  | .push regs => Sys2Proof.Machine.execPush regs s
  | .pop regs => Sys2Proof.Machine.execPop regs s
  | .addImm rd ra c => Sys2Proof.Machine.execAddImm rd ra c s
  | .addReg rd ra rb => Sys2Proof.Machine.execAddReg rd ra rb s
  | .subImm rd ra c => Sys2Proof.Machine.execSubImm rd ra c s
  | .subReg rd ra rb => Sys2Proof.Machine.execSubReg rd ra rb s
  | .shl rd rs n => Sys2Proof.Machine.execShl rd rs n s
  | .shr rd rs n => Sys2Proof.Machine.execShr rd rs n s
  | .and rd ra rb => Sys2Proof.Machine.execAnd rd ra rb s
  | .or rd ra rb => Sys2Proof.Machine.execOr rd ra rb s
  | .not rd rs => Sys2Proof.Machine.execNot rd rs s
  | .jmp l => Sys2Proof.Machine.execJmp l s
  | .bln l => Sys2Proof.Machine.execBln l s
  | .ret => Sys2Proof.Machine.execRet s
  | .cmpImm ra c => Sys2Proof.Machine.execCmpImm ra c s
  | .cmpReg ra rb => Sys2Proof.Machine.execCmpReg ra rb s
  | .beq l => Sys2Proof.Machine.execBeq l s
  | .bne l => Sys2Proof.Machine.execBne l s
  | .bgt l => Sys2Proof.Machine.execBgt l s
  | .bgtu l => Sys2Proof.Machine.execBgtu l s
  | .blt l => Sys2Proof.Machine.execBlt l s
  | .bltu l => Sys2Proof.Machine.execBltu l s
  | .halt => Sys2Proof.Machine.execHalt s

end Sys2Proof.Machine
end

