-- ==== Sys2Proof/Machine/Step.lean ====
section
/-! DEFINITION. One step of the machine (spec/10_state.md R14, R19), and the placing of one instruction where the next step fetches. -/

namespace Sys2Proof.Machine

/-- One step: nothing when halted (R19; notes/assumptions/10.md); otherwise fetch, advance pc, decode, run (R14). The checks come in
the order fetch, decode, pseudocode (R173). -/
def step (s : State) : Host.Outcome State Fault Refusal :=
  if s.halted then .next s
  else
    match fetch s with
    | .error f => .fault f
    | .ok (inst, t) =>
      match decode inst with
      | .instr i => exec i t
      | .illegalOpcode w => .fault (.illegalOpcode w t)
      | .reservedEncoding w => .fault (.reservedEncoding w t)

/-- The instruction whose `nbits` bits are `w` (bits above `nbits` zero) stored at the address in pc, and the run state cleared, since a
halted machine fetches nothing (R19). It stands for the loader that fills `INIT_MEM` (R197; notes/assumptions/11.md). -/
def State.withFetchWord (s : State) (nbits w : Nat) : State :=
  { s with mem := Memory.write s.mem s.pc.toNat (BitVec.ofNat 16 (w % 2 ^ nbits)), halted := false }

end Sys2Proof.Machine
end

