-- ==== Sys2Proof/Safety.lean ====
section
/-! DEFINITION. What counts as a safe run and as the end of one (spec/60_exceptions.md R171, spec/70_reset_and_hazards.md R198), the
invariant of the model, and the words the statements' frames are written in. -/

namespace Sys2Proof.Machine

/-- The invariant every step keeps: the memory is in its canonical form (strictly rising addresses, all below 2048: R18, R30). -/
def State.Inv (s : State) : Prop := Memory.wf s.mem = true

/-- No fault and no refusal in `n` steps (R171: every claim about a program carries this as an obligation). -/
def SafeFor (n : Nat) (s : State) : Prop := ∃ t, Host.Core.run Sys2Proof.core n s = .next t

/-- The run from `s` ends after `n` steps in `t` (R198): `t` is the first halted state. -/
def EndsIn (n : Nat) (s t : State) : Prop :=
  Host.Core.run Sys2Proof.core n s = .next t ∧ t.halted = true ∧
    ∀ k u, k < n → Host.Core.run Sys2Proof.core k s = .next u → u.halted = false

/-! ### Frames -/

/-- Every register outside the list holds what it held. -/
def SameRegsBut (changed : List Reg) (s t : State) : Prop := ∀ q, q ∉ changed → t.getReg q = s.getReg q

/-- Every address of memory reads as before: the same word, or still no value. -/
def SameMemory (s t : State) : Prop := ∀ a : Addr, t.wordAt a = s.wordAt a

/-- Every address of memory but one reads as before. -/
def SameMemoryBut (a : Addr) (s t : State) : Prop := ∀ b : Addr, b ≠ a → t.wordAt b = s.wordAt b

/-- R7 where the class uses the latch, nothing else: what `clobber_mbr(K)` may change (R111). -/
def latched (p : Config.Params) (k : MbrClass) : List Reg := if mbrActive p k then [.r7] else []

/-- The state the instruction finds: the word fetched, pc advanced (R14). -/
def State.fetched (s : State) (inst : Word) : State := ((s.setMar s.pc).setIr inst).setPc (s.pc + 1)

/-- The step from `s` goes on with `v` as the word at the next sequential address, and the step after it fetches `v` and runs what it
decodes to (20_memory.md R40). -/
def NextFetchSees (s : State) (v : Word) : Prop :=
  ∃ t, step s = .next t ∧ t.halted = false ∧ t.pc = s.pc + 1 ∧ t.wordAt t.pc = some v ∧
    ∀ i, decode v = .instr i → step t = exec i (t.fetched v)

/-- The state without the three internal registers no program can see (R17). -/
def State.visible (s : State) : State := ((s.setIr 0).setMar 0).setAcc 0

end Sys2Proof.Machine
end

