-- ==== Sys2Proof/Certificates/Slice0/Obligations.lean ====
section
/-! DEFINITION. The statements about the model. Each docstring names what of spec/ it formalises; where it rests on a choice of the model,
the log entry. The list with titles and cites is OBLIGATIONS.json. -/

open Sys2Proof Sys2Proof.Machine

/-! ### Encoding -/

/-- The six worked encodings of R71, one per type, both ways. -/
def Obligations.WorkedEncodingsDecodeAndEncode : Prop :=
  (decode 0x0186 = .instr (.movImm .r1 0x86) ∧ encode (.movImm .r1 0x86) = 0x0186) ∧
  (decode 0x2962 = .instr (.strr .r1 .r3 2) ∧ encode (.strr .r1 .r3 2) = 0x2962) ∧
  (decode 0x8923 = .instr (.jmp 0x123) ∧ encode (.jmp 0x123) = 0x8923) ∧
  (decode 0x4A04 = .instr (.addReg .r2 .r0 .r1) ∧ encode (.addReg .r2 .r0 .r1) = 0x4A04) ∧
  (decode 0x6106 = .instr (.shl .r1 .r0 3) ∧ encode (.shl .r1 .r0 3) = 0x6106) ∧
  (decode 0x3022 = .instr (.push [.r0, .r1]) ∧ encode (.push [.r0, .r1]) = 0x3022)

/-- `decode(encode(i)) = i` for every instruction (30_encoding.md section 6). -/
def Obligations.DecodeOfEncodeIsTheInstruction : Prop :=
  ∀ i, WellFormed i = true → decode (encode i) = .instr i

/-- `encode(decode(w)) = w` exactly when the unused bits of `w` are 0 (30_encoding.md section 6; the unused bits by the spec's decision D12,
log 22). -/
def Obligations.EncodeOfDecodeIsTheWordIffUnusedZero : Prop :=
  ∀ w i, decode w = .instr i → (encode i = w ↔ w &&& unusedMask w = 0)

/-- The unused bits of an instruction take any value without effect on what it decodes to, and an encoder writes them as 0 (R61, whose
choice is the spec's decision D12, log 22). -/
def Obligations.UnusedBitsTakeNoPart : Prop :=
  (∀ w v i, decode w = .instr i → decode ((w &&& ~~~(unusedMask w)) ||| (v &&& unusedMask w)) = .instr i) ∧
  ∀ i, WellFormed i = true → encode i &&& unusedMask (encode i) = 0

/-- Decoding is total (30_encoding.md section 6): by opcode and count, every word is one rejection (the spec's decisions D10 and D11,
log 22) or one well-formed instruction of that opcode. -/
def Obligations.EveryWordDecodesOrIsRejectedByName : Prop :=
  ∀ w : Word,
    (29 ≤ (opcodeField w).toNat → decode w = .illegalOpcode w) ∧
    ((opcodeField w = 6 ∨ opcodeField w = 7) → countField w = 0 → decode w = .reservedEncoding w) ∧
    ((opcodeField w).toNat < 29 → ((opcodeField w = 6 ∨ opcodeField w = 7) → countField w ≠ 0) →
      ∃ i, decode w = .instr i ∧ WellFormed i = true ∧ opcodeOf i = opcodeField w)

/-! ### The step -/

/-- When the word at pc decodes to an instruction, the step is exec of that instruction at the fetched state: IR the word, MAR the old
pc, pc advanced modulo 2048 (10_state.md section 2; the advance by the spec's decisions D2 and D3, log 16; that IR and MAR stay so until
the meaning runs is log 9). -/
def Obligations.StepRunsTheDecodedInstruction : Prop :=
  ∀ s w i, s.halted = false → s.wordAt s.pc = some w → decode w = .instr i →
    step s = exec i (s.fetched w) ∧ (s.fetched w).pc.toNat = (s.pc.toNat + 1) % 2048 ∧
      (s.fetched w).ir = w ∧ (s.fetched w).mar = s.pc ∧ (s.fetched w).regs = s.regs ∧ (s.fetched w).flags = s.flags ∧
      (s.fetched w).mem = s.mem ∧ (s.fetched w).acc = s.acc ∧ (s.fetched w).halted = false ∧ (s.fetched w).params = s.params

/-- R63: the words 0xE800 to 0xFFFF stop the step with IllegalOpcode and the word (the spec's decision D11, log 22; the state the fault
carries is the fetched one, logs 9 and 12). -/
def Obligations.UnassignedOpcodesFault : Prop :=
  ∀ s w, s.halted = false → s.wordAt s.pc = some w → 0xE800 ≤ w.toNat → step s = .fault (.illegalOpcode w (s.fetched w))

/-- R64: PUSH and POP with count 0 stop the step with ReservedEncoding and the word (the spec's decision D10, log 22; the state the fault
carries is the fetched one, logs 9 and 12). -/
def Obligations.ZeroCountStackWordsFault : Prop :=
  ∀ s w, s.halted = false → s.wordAt s.pc = some w → (w &&& 0xF803 = 0x3000 ∨ w &&& 0xF803 = 0x3800) →
    step s = .fault (.reservedEncoding w (s.fetched w))

/-- A fetch of a word that has no value stops the step with UnsetRead (20_memory.md section 2; that MAR then holds the address is log 9,
that pc is not advanced log 12). -/
def Obligations.FetchOfUnsetWordFaults : Prop :=
  ∀ s, s.halted = false → s.wordAt s.pc = none → step s = .fault (.unsetRead s.pc (s.setMar s.pc))

/-- A halted machine takes no step: in the model, any number of steps answers the same state (log 10). -/
def Obligations.HaltedMachineNeverChanges : Prop :=
  ∀ n s, s.halted = true → Host.Core.run Sys2Proof.core n s = .next s

/-- HALT alone sets the run state, and nothing clears it (10_state.md section 6). -/
def Obligations.OnlyHaltChangesTheRunState : Prop :=
  ∀ i s t, exec i s = .next t → t.halted = (s.halted || decide (i = .halt))

/-- JMP, BLN, RET and the six conditional branches are the only instructions that write pc (10_state.md section 2). -/
def Obligations.OnlyTransfersWriteThePc : Prop :=
  ∀ i s t, exec i s = .next t →
    t.pc = s.pc ∨ (∃ l, i ∈ [.jmp l, .bln l, .beq l, .bne l, .bgt l, .bgtu l, .blt l, .bltu l] ∧ t.pc = l) ∨ i = .ret

/-- With `FLAGS_ON_ALU = preserve` CMP alone writes a flag; under every value, so do at most CMP and the nine arithmetic and logic
instructions (10_state.md section 3). -/
def Obligations.OnlyComparisonsWriteFlags : Prop :=
  ∀ i s t, exec i s = .next t → (opcodeOf i).toNat ≠ 20 → (opcodeOf i).toNat ≠ 21 →
    (s.params.flagsOnAlu = .preserve ∨ (opcodeOf i).toNat < 8 ∨ 16 < (opcodeOf i).toNat) → t.flags = s.flags

/-- STRA, STRR and PUSH alone write memory (20_memory.md section 4). -/
def Obligations.OnlyStoresWriteMemory : Prop :=
  ∀ i s t, exec i s = .next t → (opcodeOf i).toNat ∉ [4, 5, 6] → SameMemory s t

/-- IR is written by the fetch alone; MAR by the memory operations (opcodes 2 to 7) alone; ACC by the arithmetic, logic and compare
instructions and by LDR, STRR, PUSH and POP alone; the parameters by nothing (10_state.md section 4; logs 6, 8, 9). -/
def Obligations.InternalRegistersAndParametersFrame : Prop :=
  ∀ i s t, exec i s = .next t →
    t.ir = s.ir ∧ t.params = s.params ∧
    ((opcodeOf i).toNat ∉ [2, 3, 4, 5, 6, 7] → t.mar = s.mar) ∧
    ((opcodeOf i).toNat ∉ [3, 5, 6, 7, 8, 9, 10, 11, 12, 13, 14, 15, 16, 20, 21] → t.acc = s.acc)

/-- No step depends on IR, MAR or ACC as it finds them, nor shows them: two states that differ in them alone step alike, up to them
(10_state.md sections 4 and 6). The two states have one count of free values, so that both runs draw the same value at the same count:
the model's choice, log 7. -/
def Obligations.InternalRegistersCannotBeObserved : Prop :=
  ∀ s t, s.visible = t.visible →
    (∀ s', step s = .next s' → ∃ t', step t = .next t' ∧ s'.visible = t'.visible) ∧
    ((∃ f, step s = .fault f) → ∃ f, step t = .fault f)

/-- No step of any instruction answers a refusal. -/
def Obligations.NoStepIsRefused : Prop :=
  ∀ s r, step s ≠ .refused r

/-! ### Reset and the invariant -/

/-- What reset leaves where the spec says it: RESET_PC, not halted, no word of memory but `INIT_MEM`'s, the default parameters
(70_reset_and_hazards.md section 1; `State.reset` itself has the empty image). -/
def Obligations.ResetLeavesTheSpecifiedValues : Prop :=
  State.reset.pc = 0 ∧ State.reset.halted = false ∧ (∀ a, State.reset.wordAt a = none) ∧
  State.reset.params = ⟨0, true, true, .ignore, .preserve, false, .conservative, ⟨.down, .full, .same⟩⟩

/-- A launch is reset with the loader's image: pc is RESET_PC, the machine runs, and each word is the image's first word for its address,
or has no value (70_reset_and_hazards.md sections 1 and 5; an address named twice takes its first word, log 11; the canonical form in Inv
is the model's, log 5). -/
def Obligations.LaunchPlacesTheImage : Prop :=
  ∀ p image, (State.launch p image).pc = p.resetPc ∧ (State.launch p image).halted = false ∧
    (State.launch p image).params = p ∧ (State.launch p image).Inv ∧
    ∀ a, (State.launch p image).wordAt a = List.lookup a image

/-- The invariant holds right after reset: the memory is in its canonical form, strictly rising addresses below 2048. That form is the
model's choice (log 5); the spec gives the 2048 addresses alone. -/
def Obligations.InvariantHoldsAtReset : Prop := State.reset.Inv

/-- Every step keeps the memory in its canonical form: strictly rising addresses, all inside the 2048 words (10_state.md section 5,
20_memory.md section 1; the form is the model's, log 5). -/
def Obligations.StepKeepsTheInvariant : Prop :=
  ∀ s t, s.Inv → step s = .next t → t.Inv

/-! ### Memory and addresses -/

/-- R34: MemRead returns the word and changes no word of memory, MemWrite replaces exactly one word, and a word without a value raises
UnsetRead (D29, log 5). That a read, and a read that faults, leaves MAR at the address is the model's reading (logs 9 and 12). -/
def Obligations.MemoryPrimitivesReadTheLastWrite : Prop :=
  (∀ a v s, memRead a s = .ok (v, s.setMar a) ↔ s.wordAt a = some v) ∧
  (∀ a v s t, memRead a s = .ok (v, t) → s.wordAt a = some v ∧ SameMemory s t ∧ t.regs = s.regs ∧ t.flags = s.flags ∧ t.pc = s.pc) ∧
  (∀ a s, s.wordAt a = none → memRead a s = .error (.unsetRead a (s.setMar a))) ∧
  (∀ a v s, (memWrite a v s).wordAt a = some v ∧ SameMemoryBut a s (memWrite a v s) ∧
    (memWrite a v s).regs = s.regs ∧ (memWrite a v s).flags = s.flags ∧ (memWrite a v s).pc = s.pc)

/-- R35: the address made from a 16-bit value, under both values of ADDR_HIGH, with the fault LDR and STRR raise on it. -/
def Obligations.EffectiveAddressByAddrHigh : Prop :=
  (∀ p v, p.addrHigh = .ignore → ∃ a, effAddr p v = some a ∧ a.toNat = v.toNat % 2048) ∧
  (∀ p v, p.addrHigh = .refuse → v.toNat < 2048 → ∃ a, effAddr p v = some a ∧ a.toNat = v.toNat) ∧
  (∀ p v, p.addrHigh = .refuse → 2048 ≤ v.toNat → effAddr p v = none) ∧
  (∀ rd ra o s, effAddr s.params (busValue .b ra s + offset o) = none →
    (∃ u, exec (.ldr rd ra o) s = .fault (.addressRange (busValue .b ra s + offset o) u)) ∧
    ∃ u, exec (.strr rd ra o) s = .fault (.addressRange (busValue .b ra s + offset o) u))

/-- R55, R56, R57: where the constants and the offset stand in the word, and their widening as numbers, with the ranges of the rules. -/
def Obligations.ConstantsAndOffsetsWiden : Prop :=
  (∀ w, (opcodeField w = 0 → decode w = .instr (.movImm (reg0Field w) (w.extractLsb' 0 8))) ∧
    (opcodeField w = 20 → decode w = .instr (.cmpImm (reg0Field w) (w.extractLsb' 0 8))) ∧
    (opcodeField w = 8 → decode w = .instr (.addImm (reg0Field w) (reg1Field w) (w.extractLsb' 0 5))) ∧
    (opcodeField w = 10 → decode w = .instr (.subImm (reg0Field w) (reg1Field w) (w.extractLsb' 0 5))) ∧
    (opcodeField w = 3 → decode w = .instr (.ldr (reg0Field w) (reg1Field w) (w.extractLsb' 0 5))) ∧
    (opcodeField w = 5 → decode w = .instr (.strr (reg0Field w) (reg1Field w) (w.extractLsb' 0 5)))) ∧
  (∀ p c, p.imm8Signed = true → (imm8 p c).toInt = c.toInt ∧ -128 ≤ (imm8 p c).toInt ∧ (imm8 p c).toInt ≤ 127) ∧
  (∀ p c, p.imm8Signed = false → (imm8 p c).toNat = c.toNat ∧ (imm8 p c).toNat ≤ 255) ∧
  (∀ p c, p.imm5Signed = true → (imm5 p c).toInt = c.toInt ∧ -16 ≤ (imm5 p c).toInt ∧ (imm5 p c).toInt ≤ 15) ∧
  (∀ p c, p.imm5Signed = false → (imm5 p c).toNat = c.toNat ∧ (imm5 p c).toNat ≤ 31) ∧
  (∀ p q c, c.toNat ≤ 15 → imm5 p c = imm5 q c) ∧
  (∀ o, (offset o).toInt = o.toInt ∧ -16 ≤ (offset o).toInt ∧ (offset o).toInt ≤ 15)

/-- A word stored by STRA, STRR or PUSH into the next instruction's address is the instruction the next step runs (20_memory.md section 4,
by the spec's decisions D1 and D19, log 15). The source is stored exactly unless it is R7 under the latch (log 25); PUSH may store there in
any of its iterations, under every stack convention (log 13), R5 and repeated registers included (log 14). -/
def Obligations.StoreIsSeenByTheNextFetch : Prop :=
  (∀ s w i, s.halted = false → s.wordAt s.pc = some w → decode w = .instr (.stra (s.pc + 1)) →
    decode (s.getReg .r7) = .instr i →
    ∃ t, step s = .next t ∧ t.pc = s.pc + 1 ∧ t.wordAt t.pc = some (s.getReg .r7) ∧
      step t = exec i (t.fetched (s.getReg .r7))) ∧
  (∀ s w rs ra o, s.halted = false → s.wordAt s.pc = some w → decode w = .instr (.strr rs ra o) →
    effAddr s.params (busValue .b ra s + offset o) = some (s.pc + 1) →
    ∃ v, NextFetchSees s v ∧ (rs ∉ latched s.params .b → v = s.getReg rs)) ∧
  ∀ s w regs k r, s.halted = false → s.wordAt s.pc = some w → decode w = .instr (.push regs) →
    (∀ j, j < regs.length →
      (effAddr s.params (pushAt s.params (s.getReg .r5 + BitVec.ofNat 16 j * pushDelta s.params))).isSome = true) →
    regs[k]? = some r →
    effAddr s.params (pushAt s.params (s.getReg .r5 + BitVec.ofNat 16 k * pushDelta s.params)) = some (s.pc + 1) →
    ∃ v, NextFetchSees s v ∧ (r ∉ latched s.params .b →
      v = if r = .r5 then s.getReg .r5 + BitVec.ofNat 16 k * pushDelta s.params else s.getReg r)

/-! ### Moves -/

/-- R80: MOV immediate, its encoding, its value under both settings of IMM8_SIGNED, and its frame. -/
def Obligations.MovImmediateLoadsTheWidenedConstant : Prop :=
  (∀ w, opcodeField w = 0 → decode w = .instr (.movImm (reg0Field w) (const8Field w))) ∧
  ∀ rd c s, ∃ t, exec (.movImm rd c) s = .next t ∧
    (s.params.imm8Signed = true → (t.getReg rd).toInt = c.toInt) ∧
    (s.params.imm8Signed = false → (t.getReg rd).toNat = c.toNat) ∧
    SameRegsBut [rd] s t ∧ SameMemory s t ∧ t.flags = s.flags ∧ t.pc = s.pc ∧ t.halted = s.halted

/-- MOV register copies, R7 exactly too, and changes nothing else (40_data_movement.md). -/
def Obligations.MovRegisterCopiesTheSource : Prop :=
  ∀ rd rs s, ∃ t, exec (.movReg rd rs) s = .next t ∧ t.getReg rd = s.getReg rs ∧
    SameRegsBut [rd] s t ∧ SameMemory s t ∧ t.flags = s.flags ∧ t.pc = s.pc ∧ t.halted = s.halted

/-! ### Memory operations -/

/-- R91: LDA loads the word at the label into R7 exactly (the spec's decision D7, log 20), and raises UnsetRead on a word without a value.
That MAR then holds the label is the model's reading (log 9). -/
def Obligations.LdaLoadsTheWordIntoR7 : Prop :=
  (∀ w, opcodeField w = 2 → decode w = .instr (.lda (f2Field w))) ∧
  (∀ l s v, s.wordAt l = some v → ∃ t, exec (.lda l) s = .next t ∧ t.getReg .r7 = v ∧ t.mar = l ∧
    SameRegsBut [.r7] s t ∧ SameMemory s t ∧ t.flags = s.flags ∧ t.pc = s.pc ∧ t.halted = s.halted) ∧
  ∀ l s, s.wordAt l = none → ∃ u, exec (.lda l) s = .fault (.unsetRead l u)

/-- LDR loads the word at ea(base + offset), the base read over the bus; R7 may change where class B uses the latch. A word without a
value raises UnsetRead at its address (41_memory_ops.md, LDR; 20_memory.md section 2; D8 and D16, logs 21 and 25). That MAR then holds the
address is the model's reading (log 9). -/
def Obligations.LdrLoadsThroughTheRegister : Prop :=
  (∀ rd ra o s a v, effAddr s.params (busValue .b ra s + offset o) = some a → s.wordAt a = some v →
    ∃ t, exec (.ldr rd ra o) s = .next t ∧ t.getReg rd = v ∧ t.mar = a ∧
      SameRegsBut (rd :: latched s.params .b) s t ∧ SameMemory s t ∧ t.flags = s.flags ∧ t.pc = s.pc ∧ t.halted = s.halted) ∧
  ∀ rd ra o s a, effAddr s.params (busValue .b ra s + offset o) = some a → s.wordAt a = none →
    ∃ u, exec (.ldr rd ra o) s = .fault (.unsetRead a u)

/-- STRA stores R7 at the label and changes no register a program can name (41_memory_ops.md, STRA). That MAR then holds the label is the
model's reading (log 9). -/
def Obligations.StraStoresR7 : Prop :=
  ∀ l s, ∃ t, exec (.stra l) s = .next t ∧ t.wordAt l = some (s.getReg .r7) ∧ t.mar = l ∧ SameMemoryBut l s t ∧
    SameRegsBut [] s t ∧ t.flags = s.flags ∧ t.pc = s.pc ∧ t.halted = s.halted

/-- STRR stores at ea(base + offset), the base and the source read over the bus: the source exactly unless it is R7 under the latch
(41_memory_ops.md, STRR; D8 and D16, logs 21 and 25). That MAR then holds the address is the model's reading (log 9). -/
def Obligations.StrrStoresThroughTheRegister : Prop :=
  ∀ rs ra o s a, effAddr s.params (busValue .b ra s + offset o) = some a →
    ∃ t, exec (.strr rs ra o) s = .next t ∧ (∃ v, t.wordAt a = some v) ∧
      (rs ∉ latched s.params .b → t.wordAt a = some (s.getReg rs)) ∧ t.mar = a ∧ SameMemoryBut a s t ∧
      SameRegsBut (latched s.params .b) s t ∧ t.flags = s.flags ∧ t.pc = s.pc ∧ t.halted = s.halted

/-- PUSH of one to three registers, under every stack convention: iteration j stores at the address the convention gives for R5 after j
iterations, the register exactly unless it is R7 under the latch, R5 itself as it stands in that iteration; R5 moves by the number of
registers, every other address and register is as before (41_memory_ops.md, PUSH). The conventions other than the default are the model's
reading of `STACK` (log 13); that PUSH of R5 or of one register twice runs the printed pseudocode, where the spec advises refusing (D27),
is the model's choice (log 14). -/
def Obligations.PushStoresEachRegisterInOrder : Prop :=
  ∀ regs s, WellFormed (.push regs) = true →
    (∀ j, j < regs.length →
      (effAddr s.params (pushAt s.params (s.getReg .r5 + BitVec.ofNat 16 j * pushDelta s.params))).isSome = true) →
    ∃ t, exec (.push regs) s = .next t ∧
      t.getReg .r5 = s.getReg .r5 + BitVec.ofNat 16 regs.length * pushDelta s.params ∧
      (∀ j r a, regs[j]? = some r → r ∉ latched s.params .b →
        effAddr s.params (pushAt s.params (s.getReg .r5 + BitVec.ofNat 16 j * pushDelta s.params)) = some a →
        t.wordAt a = some (if r = .r5 then s.getReg .r5 + BitVec.ofNat 16 j * pushDelta s.params else s.getReg r)) ∧
      (∀ b, (∀ j, j < regs.length →
          effAddr s.params (pushAt s.params (s.getReg .r5 + BitVec.ofNat 16 j * pushDelta s.params)) ≠ some b) →
        t.wordAt b = s.wordAt b) ∧
      SameRegsBut (.r5 :: latched s.params .b) s t ∧ t.flags = s.flags ∧ t.pc = s.pc ∧ t.halted = s.halted

/-- POP of one to three registers, R5 among them or not (log 14), under every stack convention (log 13). `sps` lists R5 before each iteration and at the
end, `ws` the words read: iteration j reads at the address the convention gives for R5 as it then stands, and R5 then moves back by one
word or, when the register is R5, holds the word read. A register named twice ends with the later word (41_memory_ops.md, POP). -/
def Obligations.PopLoadsEachRegisterInOrder : Prop :=
  ∀ regs s (sps ws : List Word), WellFormed (.pop regs) = true →
    ws.length = regs.length → sps.length = regs.length + 1 → sps[0]? = some (s.getReg .r5) →
    (∀ j r w sp, (popSequence s.params regs)[j]? = some r → ws[j]? = some w → sps[j]? = some sp →
      (effAddr s.params (popAt s.params sp)).bind s.wordAt = some w ∧
      sps[j + 1]? = some (if r = .r5 then w else sp - pushDelta s.params)) →
    ∃ t, exec (.pop regs) s = .next t ∧ sps[regs.length]? = some (t.getReg .r5) ∧
      (∀ j r w, (popSequence s.params regs)[j]? = some r → r ≠ .r5 → r ∉ (popSequence s.params regs).drop (j + 1) →
        r ∉ latched s.params .b → ws[j]? = some w → t.getReg r = w) ∧
      SameRegsBut (.r5 :: regs ++ latched s.params .b) s t ∧ SameMemory s t ∧ t.flags = s.flags ∧ t.pc = s.pc ∧
      t.halted = s.halted

/-- POP that names R5 loads it after its increment, and a later iteration uses the loaded value (41_memory_ops.md, POP; log 14); stated
for the default stack. -/
def Obligations.PopOfStackPointerUsesTheLoadedValue : Prop :=
  ∀ s a v, s.params.stack = defaultStack → effAddr s.params (s.getReg .r5) = some a → s.wordAt a = some v →
    (∃ t, exec (.pop [.r5]) s = .next t ∧ t.getReg .r5 = v ∧ SameRegsBut (.r5 :: latched s.params .b) s t ∧ SameMemory s t ∧
      t.flags = s.flags ∧ t.pc = s.pc ∧ t.halted = s.halted) ∧
    ∀ r b w, r ≠ .r5 → effAddr s.params v = some b → s.wordAt b = some w →
      ∃ t, exec (.pop [.r5, r]) s = .next t ∧ (r ∉ latched s.params .b → t.getReg r = w) ∧ t.getReg .r5 = v + 1 ∧
        SameRegsBut (.r5 :: r :: latched s.params .b) s t ∧ SameMemory s t ∧ t.flags = s.flags ∧ t.pc = s.pc ∧
        t.halted = s.halted

/-- The stack by default is full descending: PUSH of three registers stores at ea(SP-1), ea(SP-2), ea(SP-3) in operand order
(41_memory_ops.md, the stack; 20_memory.md section 4; D8 and D9, logs 13 and 21). The registers may repeat, which is the model's choice
(log 14). -/
def Obligations.DefaultPushDescendsFromSp : Prop :=
  ∀ x y z s, s.params.stack = defaultStack → s.params.addrHigh = .ignore →
    x ∉ [.r5, .r7] → y ∉ [.r5, .r7] → z ∉ [.r5, .r7] →
    ∃ t, exec (.push [x, y, z]) s = .next t ∧ t.getReg .r5 = s.getReg .r5 - 3 ∧
      t.wordAt (lowAddr (s.getReg .r5 - 1)) = some (s.getReg x) ∧
      t.wordAt (lowAddr (s.getReg .r5 - 2)) = some (s.getReg y) ∧
      t.wordAt (lowAddr (s.getReg .r5 - 3)) = some (s.getReg z)

/-- A PUSH is undone by the POP of its registers in the opposite order, by default: the registers and R5 are as before, and the flags
(41_memory_ops.md, the stack; D9, log 13). The registers may repeat, which is the model's choice (log 14). -/
def Obligations.PopInMirrorOrderUndoesPush : Prop :=
  ∀ regs s t, WellFormed (.push regs) = true → .r5 ∉ regs → .r7 ∉ regs → s.params.stack = defaultStack →
    exec (.push regs) s = .next t →
    ∃ u, exec (.pop regs.reverse) t = .next u ∧ SameRegsBut (latched s.params .b) s u ∧ SameMemory t u ∧
      u.flags = s.flags ∧ u.pc = s.pc

/-- Where PUSH and POP stop, in whichever iteration, and the state the stop leaves (41_memory_ops.md, PUSH and POP; 60_exceptions.md
section 4). PUSH stops in iteration k with AddressRange on an address ADDR_HIGH refuses, POP there with AddressRange too or with UnsetRead
on a stack word without a value; the earlier iterations have transferred their registers and moved R5, and nothing else has changed. As in
PopLoadsEachRegisterInOrder, `sps` lists R5 before each iteration of POP up to k and `ws` the words read before. That iteration k leaves R5
as it found it is log 12; the conventions other than the default are log 13; R5 and repeated registers as operands log 14. -/
def Obligations.StackAccessStops : Prop :=
  (∀ regs k s, WellFormed (.push regs) = true → k < regs.length →
    (∀ j, j < k →
      (effAddr s.params (pushAt s.params (s.getReg .r5 + BitVec.ofNat 16 j * pushDelta s.params))).isSome = true) →
    effAddr s.params (pushAt s.params (s.getReg .r5 + BitVec.ofNat 16 k * pushDelta s.params)) = none →
    ∃ u, exec (.push regs) s =
        .fault (.addressRange (pushAt s.params (s.getReg .r5 + BitVec.ofNat 16 k * pushDelta s.params)) u) ∧
      u.getReg .r5 = s.getReg .r5 + BitVec.ofNat 16 k * pushDelta s.params ∧
      (∀ j r a, j < k → regs[j]? = some r → r ∉ latched s.params .b →
        effAddr s.params (pushAt s.params (s.getReg .r5 + BitVec.ofNat 16 j * pushDelta s.params)) = some a →
        u.wordAt a = some (if r = .r5 then s.getReg .r5 + BitVec.ofNat 16 j * pushDelta s.params else s.getReg r)) ∧
      (∀ b, (∀ j, j < k →
          effAddr s.params (pushAt s.params (s.getReg .r5 + BitVec.ofNat 16 j * pushDelta s.params)) ≠ some b) →
        u.wordAt b = s.wordAt b) ∧
      SameRegsBut [.r5] s u ∧ u.flags = s.flags ∧ u.pc = s.pc ∧ u.halted = s.halted) ∧
  ∀ regs k s (sps ws : List Word) sp, WellFormed (.pop regs) = true → k < regs.length →
    ws.length = k → sps.length = k + 1 → sps[0]? = some (s.getReg .r5) →
    (∀ j r w x, (popSequence s.params regs)[j]? = some r → ws[j]? = some w → sps[j]? = some x →
      (effAddr s.params (popAt s.params x)).bind s.wordAt = some w ∧
      sps[j + 1]? = some (if r = .r5 then w else x - pushDelta s.params)) →
    sps[k]? = some sp → (effAddr s.params (popAt s.params sp)).bind s.wordAt = none →
    ∃ f u, exec (.pop regs) s = .fault f ∧
      (effAddr s.params (popAt s.params sp) = none → f = .addressRange (popAt s.params sp) u) ∧
      (∀ a, effAddr s.params (popAt s.params sp) = some a → f = .unsetRead a u) ∧
      u.getReg .r5 = sp ∧
      (∀ j r w, ((popSequence s.params regs).take k)[j]? = some r → r ≠ .r5 →
        r ∉ ((popSequence s.params regs).take k).drop (j + 1) → ws[j]? = some w → u.getReg r = w) ∧
      SameRegsBut (.r5 :: (popSequence s.params regs).take k) s u ∧ SameMemory s u ∧ u.flags = s.flags ∧ u.pc = s.pc ∧
      u.halted = s.halted

/-! ### The operand latch -/

/-- Which classes use the latch by MBR_MODEL, what the bus carries, and that the clobber reaches R7 alone (42_arith_logic.md section 1). -/
def Obligations.LatchReachesOnlyR7 : Prop :=
  (∀ p k, mbrActive p k = true ↔ p.mbrModel = .conservative ∨ p.mbrModel = .alu2 ∧ k = .a) ∧
  (∀ k r s, r ∉ latched s.params k → busValue k r s = s.getReg r ∧ afterBus k r s = s) ∧
  (∀ k s, SameRegsBut (latched s.params k) s (clobberMbr k s) ∧ SameMemory s (clobberMbr k s) ∧
    (clobberMbr k s).flags = s.flags ∧ (clobberMbr k s).pc = s.pc)

/-- The instructions of no class (MOV, NOT, STRA, JMP, BLN, RET, the conditional branches, HALT) leave R7 alone unless they name it as
the destination, under every MBR_MODEL; with the transparent latch every instruction but LDA does (42_arith_logic.md section 1). -/
def Obligations.InstructionsOfNoClassKeepR7 : Prop :=
  ∀ i s t, exec i s = .next t →
    ((opcodeOf i).toNat ∈ [0, 1, 4, 16, 17, 18, 19, 22, 23, 24, 25, 26, 27, 28] ∨
      s.params.mbrModel = .transparent ∧ (opcodeOf i).toNat ∉ [2, 7]) →
    (∀ c, i ≠ .movImm .r7 c) → (∀ q, i ≠ .movReg .r7 q) → (∀ q, i ≠ .not .r7 q) → (∀ q o, i ≠ .ldr .r7 q o) →
    (∀ q c, i ≠ .addImm .r7 q c) → (∀ q c, i ≠ .subImm .r7 q c) → (∀ q p, i ≠ .addReg .r7 q p) → (∀ q p, i ≠ .subReg .r7 q p) →
    (∀ q n, i ≠ .shl .r7 q n) → (∀ q n, i ≠ .shr .r7 q n) → (∀ q p, i ≠ .and .r7 q p) → (∀ q p, i ≠ .or .r7 q p) →
    t.getReg .r7 = s.getReg .r7

/-! ### Arithmetic and logic -/

/-- R113: ADD immediate. -/
def Obligations.AddImmediateAddsModulo65536 : Prop :=
  (∀ w, opcodeField w = 8 → decode w = .instr (.addImm (reg0Field w) (reg1Field w) (f1Field w))) ∧
  ∀ rd ra c s, ∃ t, exec (.addImm rd ra c) s = .next t ∧
    (t.getReg rd).toNat = ((busValue .a ra s).toNat + (imm5 s.params c).toNat) % 65536 ∧
    SameRegsBut (rd :: latched s.params .a) s t ∧ SameMemory s t ∧ t.pc = s.pc ∧ t.halted = s.halted ∧
    (s.params.flagsOnAlu = .preserve → t.flags = s.flags) ∧
    (s.params.flagsOnAlu = .update → t.flags = addFlags (busValue .a ra s) (imm5 s.params c))

/-- R114: ADD register; the second source is read exactly, R7 too. -/
def Obligations.AddRegisterAddsModulo65536 : Prop :=
  (∀ w, opcodeField w = 9 → decode w = .instr (.addReg (reg0Field w) (reg1Field w) (reg2Field w))) ∧
  ∀ rd ra rb s, ∃ t, exec (.addReg rd ra rb) s = .next t ∧
    (t.getReg rd).toNat = ((busValue .a ra s).toNat + (s.getReg rb).toNat) % 65536 ∧
    SameRegsBut (rd :: latched s.params .a) s t ∧ SameMemory s t ∧ t.pc = s.pc ∧ t.halted = s.halted ∧
    (s.params.flagsOnAlu = .preserve → t.flags = s.flags) ∧
    (s.params.flagsOnAlu = .update → t.flags = addFlags (busValue .a ra s) (s.getReg rb))

/-- R115: SUB immediate, first operand minus the constant. -/
def Obligations.SubImmediateSubtractsModulo65536 : Prop :=
  (∀ w, opcodeField w = 10 → decode w = .instr (.subImm (reg0Field w) (reg1Field w) (f1Field w))) ∧
  ∀ rd ra c s, ∃ t, exec (.subImm rd ra c) s = .next t ∧
    ((t.getReg rd).toNat : Int) = ((busValue .a ra s).toNat - (imm5 s.params c).toNat : Int) % 65536 ∧
    SameRegsBut (rd :: latched s.params .a) s t ∧ SameMemory s t ∧ t.pc = s.pc ∧ t.halted = s.halted ∧
    (s.params.flagsOnAlu = .preserve → t.flags = s.flags) ∧
    (s.params.flagsOnAlu = .update → t.flags = cmpFlags (busValue .a ra s) (imm5 s.params c))

/-- R116: SUB register, first operand minus second. -/
def Obligations.SubRegisterSubtractsModulo65536 : Prop :=
  (∀ w, opcodeField w = 11 → decode w = .instr (.subReg (reg0Field w) (reg1Field w) (reg2Field w))) ∧
  ∀ rd ra rb s, ∃ t, exec (.subReg rd ra rb) s = .next t ∧
    ((t.getReg rd).toNat : Int) = ((busValue .a ra s).toNat - (s.getReg rb).toNat : Int) % 65536 ∧
    SameRegsBut (rd :: latched s.params .a) s t ∧ SameMemory s t ∧ t.pc = s.pc ∧ t.halted = s.halted ∧
    (s.params.flagsOnAlu = .preserve → t.flags = s.flags) ∧
    (s.params.flagsOnAlu = .update → t.flags = cmpFlags (busValue .a ra s) (s.getReg rb))

/-- R117 and R118: the logical shifts, bit by bit, by the 4-bit count in bits 4:1. -/
def Obligations.ShiftsMoveEveryBit : Prop :=
  (∀ w, opcodeField w = 12 → decode w = .instr (.shl (reg0Field w) (reg1Field w) (const4Field w))) ∧
  (∀ w, opcodeField w = 13 → decode w = .instr (.shr (reg0Field w) (reg1Field w) (const4Field w))) ∧
  (∀ rd rs n s, ∃ t, exec (.shl rd rs n) s = .next t ∧
    (∀ j, j < 16 → (t.getReg rd).getLsbD j = (decide (n.toNat ≤ j) && (busValue .b rs s).getLsbD (j - n.toNat))) ∧
    SameRegsBut (rd :: latched s.params .b) s t ∧ SameMemory s t ∧ t.pc = s.pc ∧ t.halted = s.halted ∧
    (s.params.flagsOnAlu = .preserve → t.flags = s.flags) ∧
    (s.params.flagsOnAlu = .update → t.flags.zr = decide (t.getReg rd = 0) ∧ t.flags.ng = (t.getReg rd).getLsbD 15)) ∧
  (∀ rd rs n s, ∃ t, exec (.shr rd rs n) s = .next t ∧
    (∀ j, j < 16 → (t.getReg rd).getLsbD j = (busValue .b rs s).getLsbD (j + n.toNat)) ∧
    SameRegsBut (rd :: latched s.params .b) s t ∧ SameMemory s t ∧ t.pc = s.pc ∧ t.halted = s.halted ∧
    (s.params.flagsOnAlu = .preserve → t.flags = s.flags) ∧
    (s.params.flagsOnAlu = .update → t.flags.zr = decide (t.getReg rd = 0) ∧ t.flags.ng = (t.getReg rd).getLsbD 15))

/-- R119 and R120: AND and OR, bit by bit. -/
def Obligations.AndOrActOnEveryBit : Prop :=
  (∀ w, opcodeField w = 14 → decode w = .instr (.and (reg0Field w) (reg1Field w) (reg2Field w))) ∧
  (∀ w, opcodeField w = 15 → decode w = .instr (.or (reg0Field w) (reg1Field w) (reg2Field w))) ∧
  (∀ rd ra rb s, ∃ t, exec (.and rd ra rb) s = .next t ∧
    (∀ j, j < 16 → (t.getReg rd).getLsbD j = ((busValue .a ra s).getLsbD j && (s.getReg rb).getLsbD j)) ∧
    SameRegsBut (rd :: latched s.params .a) s t ∧ SameMemory s t ∧ t.pc = s.pc ∧ t.halted = s.halted ∧
    (s.params.flagsOnAlu = .preserve → t.flags = s.flags) ∧
    (s.params.flagsOnAlu = .update → t.flags.zr = decide (t.getReg rd = 0) ∧ t.flags.ng = (t.getReg rd).getLsbD 15)) ∧
  (∀ rd ra rb s, ∃ t, exec (.or rd ra rb) s = .next t ∧
    (∀ j, j < 16 → (t.getReg rd).getLsbD j = ((busValue .a ra s).getLsbD j || (s.getReg rb).getLsbD j)) ∧
    SameRegsBut (rd :: latched s.params .a) s t ∧ SameMemory s t ∧ t.pc = s.pc ∧ t.halted = s.halted ∧
    (s.params.flagsOnAlu = .preserve → t.flags = s.flags) ∧
    (s.params.flagsOnAlu = .update → t.flags.zr = decide (t.getReg rd = 0) ∧ t.flags.ng = (t.getReg rd).getLsbD 15))

/-- R121: NOT inverts every bit; R7 is read exactly and not clobbered. -/
def Obligations.NotInvertsEveryBit : Prop :=
  (∀ w, opcodeField w = 16 → decode w = .instr (.not (reg0Field w) (reg1Field w))) ∧
  ∀ rd rs s, ∃ t, exec (.not rd rs) s = .next t ∧
    (∀ j, j < 16 → (t.getReg rd).getLsbD j = !(s.getReg rs).getLsbD j) ∧
    SameRegsBut [rd] s t ∧ SameMemory s t ∧ t.pc = s.pc ∧ t.halted = s.halted ∧
    (s.params.flagsOnAlu = .preserve → t.flags = s.flags) ∧
    (s.params.flagsOnAlu = .update → t.flags.zr = decide (t.getReg rd = 0) ∧ t.flags.ng = (t.getReg rd).getLsbD 15)

/-- ACC holds the ALU output after an arithmetic or logic instruction, and the difference after a comparison: the model's reading of
10_state.md section 4 (log 8). -/
def Obligations.AccumulatorHoldsTheAluOutput : Prop :=
  (∀ i s t, exec i s = .next t → ∀ rd, ((∃ ra c, i = .addImm rd ra c ∨ i = .subImm rd ra c) ∨
      (∃ ra rb, i = .addReg rd ra rb ∨ i = .subReg rd ra rb ∨ i = .and rd ra rb ∨ i = .or rd ra rb) ∨
      (∃ rs n, i = .shl rd rs n ∨ i = .shr rd rs n) ∨ ∃ rs, i = .not rd rs) → t.acc = t.getReg rd) ∧
  (∀ ra rb s t, exec (.cmpReg ra rb) s = .next t → t.acc = busValue .a ra s - s.getReg rb) ∧
  (∀ ra c s t, exec (.cmpImm ra c) s = .next t → t.acc = busValue .a ra s - imm8 s.params c)

/-- What the flags of ADD and SUB mean under FLAGS_ON_ALU = update: ZR and NG are of the 16-bit result; CA and OV are carry out and signed
overflow of the exact sum, and no borrow and signed overflow of the exact difference (42_arith_logic.md section 1; a value of the spec's
decision D13, log 23). -/
def Obligations.UpdatedFlagsAreTheExactOnes : Prop :=
  (∀ a b, (addFlags a b).zr = decide (a + b = 0) ∧ (addFlags a b).ng = (a + b).getLsbD 15 ∧
    (addFlags a b).ca = decide (65536 ≤ a.toNat + b.toNat) ∧
    ((addFlags a b).ov = true ↔ a.toInt + b.toInt < -32768 ∨ 32767 < a.toInt + b.toInt)) ∧
  (∀ a b, (cmpFlags a b).zr = decide (a - b = 0) ∧ (cmpFlags a b).ng = (a - b).getLsbD 15 ∧
    (cmpFlags a b).ca = decide (b.toNat ≤ a.toNat) ∧
    ((cmpFlags a b).ov = true ↔ a.toInt - b.toInt < -32768 ∨ 32767 < a.toInt - b.toInt))

/-! ### Comparison and branches -/

/-- R144: the flags of a comparison are those of the 16-bit subtraction, and each relation is read off them. -/
def Obligations.ComparisonFlagsAreOfTheDifference : Prop :=
  ∀ a b : Word,
    ((cmpFlags a b).zr = true ↔ a - b = 0) ∧ ((cmpFlags a b).zr = true ↔ a = b) ∧
    (cmpFlags a b).ng = (a - b).getLsbD 15 ∧
    ((cmpFlags a b).ca = true ↔ b.toNat ≤ a.toNat) ∧
    ((cmpFlags a b).ov = true ↔ a.getLsbD 15 ≠ b.getLsbD 15 ∧ (a - b).getLsbD 15 ≠ a.getLsbD 15) ∧
    ((cmpFlags a b).ng ≠ (cmpFlags a b).ov ↔ a.toInt < b.toInt)

/-- R145: CMP immediate writes all four flags under every FLAGS_ON_ALU, and nothing else but R7 under the latch. -/
def Obligations.CmpImmediateSetsAllFlags : Prop :=
  (∀ w, opcodeField w = 20 → decode w = .instr (.cmpImm (reg0Field w) (const8Field w))) ∧
  ∀ ra c s, ∃ t, exec (.cmpImm ra c) s = .next t ∧ t.flags = cmpFlags (busValue .a ra s) (imm8 s.params c) ∧
    SameRegsBut (latched s.params .a) s t ∧ SameMemory s t ∧ t.pc = s.pc ∧ t.halted = s.halted

/-- R146: CMP register; the second operand is read exactly, R7 too. -/
def Obligations.CmpRegisterSetsAllFlags : Prop :=
  (∀ w, opcodeField w = 21 → decode w = .instr (.cmpReg (reg0Field w) (reg1Field w))) ∧
  ∀ ra rb s, ∃ t, exec (.cmpReg ra rb) s = .next t ∧ t.flags = cmpFlags (busValue .a ra s) (s.getReg rb) ∧
    SameRegsBut (latched s.params .a) s t ∧ SameMemory s t ∧ t.pc = s.pc ∧ t.halted = s.halted

/-- R147 and R148: BEQ and BNE by ZR; after a comparison, by equality. -/
def Obligations.BeqBneBranchOnEquality : Prop :=
  (∀ w, opcodeField w = 22 → decode w = .instr (.beq (f2Field w))) ∧
  (∀ w, opcodeField w = 23 → decode w = .instr (.bne (f2Field w))) ∧
  (∀ l s, exec (.beq l) s = .next (if s.flags.zr = true then s.setPc l else s)) ∧
  (∀ l s, exec (.bne l) s = .next (if s.flags.zr = false then s.setPc l else s)) ∧
  ∀ a b l s, s.flags = cmpFlags a b →
    exec (.beq l) s = .next (if a = b then s.setPc l else s) ∧ exec (.bne l) s = .next (if a ≠ b then s.setPc l else s)

/-- R149 and R151: BGT and BLT by NG and OV; after a comparison, by the signed order, BGT on equality too unless
BGT_EXCLUDES_EQUAL. -/
def Obligations.BgtBltBranchOnSignedOrder : Prop :=
  (∀ w, opcodeField w = 24 → decode w = .instr (.bgt (f2Field w))) ∧
  (∀ w, opcodeField w = 26 → decode w = .instr (.blt (f2Field w))) ∧
  (∀ l s, exec (.bgt l) s =
    .next (if s.flags.ng = s.flags.ov ∧ (s.params.bgtExcludesEqual = false ∨ s.flags.zr = false) then s.setPc l else s)) ∧
  (∀ l s, exec (.blt l) s = .next (if s.flags.ng ≠ s.flags.ov then s.setPc l else s)) ∧
  ∀ a b l s, s.flags = cmpFlags a b →
    (s.params.bgtExcludesEqual = false → exec (.bgt l) s = .next (if b.toInt ≤ a.toInt then s.setPc l else s)) ∧
    (s.params.bgtExcludesEqual = true → exec (.bgt l) s = .next (if b.toInt < a.toInt then s.setPc l else s)) ∧
    exec (.blt l) s = .next (if a.toInt < b.toInt then s.setPc l else s)

/-- R150 and R152: BGTU and BLTU by CA and ZR; after a comparison, by the unsigned order. -/
def Obligations.BgtuBltuBranchOnUnsignedOrder : Prop :=
  (∀ w, opcodeField w = 25 → decode w = .instr (.bgtu (f2Field w))) ∧
  (∀ w, opcodeField w = 27 → decode w = .instr (.bltu (f2Field w))) ∧
  (∀ l s, exec (.bgtu l) s = .next (if s.flags.ca = true ∧ s.flags.zr = false then s.setPc l else s)) ∧
  (∀ l s, exec (.bltu l) s = .next (if s.flags.ca = false then s.setPc l else s)) ∧
  ∀ a b l s, s.flags = cmpFlags a b →
    exec (.bgtu l) s = .next (if b.toNat < a.toNat then s.setPc l else s) ∧
    exec (.bltu l) s = .next (if a.toNat < b.toNat then s.setPc l else s)

/-- A CMP of two registers and a branch right after it decide the relation of the registers as the CMP read them: the pair, run as
exec after exec, for all six branches by default (43_control_flow.md section 5). -/
def Obligations.CompareThenBranchDecidesTheRelation : Prop :=
  ∀ ra rb l s t, ra ∉ latched s.params .a → s.params.bgtExcludesEqual = false → exec (.cmpReg ra rb) s = .next t →
    exec (.beq l) t = .next (if s.getReg ra = s.getReg rb then t.setPc l else t) ∧
    exec (.bne l) t = .next (if s.getReg ra = s.getReg rb then t else t.setPc l) ∧
    exec (.bgt l) t = .next (if (s.getReg rb).toInt ≤ (s.getReg ra).toInt then t.setPc l else t) ∧
    exec (.bgtu l) t = .next (if (s.getReg rb).toNat < (s.getReg ra).toNat then t.setPc l else t) ∧
    exec (.blt l) t = .next (if (s.getReg ra).toInt < (s.getReg rb).toInt then t.setPc l else t) ∧
    exec (.bltu l) t = .next (if (s.getReg ra).toNat < (s.getReg rb).toNat then t.setPc l else t)

/-! ### Transfers and HALT -/

/-- R141: JMP writes pc and nothing else. -/
def Obligations.JmpGoesToItsLabel : Prop :=
  (∀ w, opcodeField w = 17 → decode w = .instr (.jmp (f2Field w))) ∧
  ∀ l s, exec (.jmp l) s = .next (s.setPc l)

/-- R142: BLN links the address after itself, modulo 2048, zero-extended, and jumps; R7 and everything else is as before. -/
def Obligations.BlnLinksTheNextAddress : Prop :=
  (∀ w, opcodeField w = 18 → decode w = .instr (.bln (f2Field w))) ∧
  (∀ l s, ∃ t, exec (.bln l) s = .next t ∧ t.pc = l ∧ (t.getReg .r6).toNat = s.pc.toNat ∧ SameRegsBut [.r6] s t ∧
    SameMemory s t ∧ t.flags = s.flags ∧ t.halted = s.halted) ∧
  ∀ s w l, s.halted = false → s.wordAt s.pc = some w → decode w = .instr (.bln l) →
    ∃ t, step s = .next t ∧ t.pc = l ∧ (t.getReg .r6).toNat = (s.pc.toNat + 1) % 2048

/-- RET goes to the low 11 bits of R6 and changes nothing else; so a call returns: in any state whose R6 is what BLN left there, RET goes
to the address after the BLN (43_control_flow.md section 2). -/
def Obligations.RetGoesToTheLinkRegister : Prop :=
  (∀ s, ∃ a : Addr, a.toNat = (s.getReg .r6).toNat % 2048 ∧ exec .ret s = .next (s.setPc a)) ∧
  ∀ l s t u, exec (.bln l) s = .next t → u.getReg .r6 = t.getReg .r6 → exec .ret u = .next (u.setPc s.pc)

/-- HALT sets the run state and nothing else, and the machine then stays as it is (43_control_flow.md section 4; the stuttering step of a
halted machine is the model's, log 10). -/
def Obligations.HaltStopsTheMachine : Prop :=
  (∀ w, opcodeField w = 28 → decode w = .instr .halt) ∧
  ∀ s, ∃ t, exec .halt s = .next t ∧ t.halted = true ∧ SameRegsBut [] s t ∧ SameMemory s t ∧ t.flags = s.flags ∧ t.pc = s.pc ∧
    ∀ n, Host.Core.run Sys2Proof.core n t = .next t
end

