-- ==== Sys2Proof/Laws/Decode.lean ====
section
/-! SUPPORT. The fields of a packed word are the fields packed (spec/30_encoding.md R51, R53), type by type, and the register field is a
numbering of the eight registers (R54). -/

namespace Sys2Proof

@[simp] theorem Reg.ofBits_toBits (r : Reg) : Reg.ofBits r.toBits = r := by cases r <;> rfl

@[simp] theorem Reg.toBits_ofBits (b : BitVec 3) : (Reg.ofBits b).toBits = b := by
  revert b; decide

/-! ### The tail of an append, and what lies above it -/

/-- Bits below the tail of an append are the tail's. -/
theorem extract_append_low {n m : Nat} (x : BitVec n) (y : BitVec m) (k len : Nat) (h : k + len ≤ m) :
    (x ++ y).extractLsb' k len = y.extractLsb' k len := by
  ext i hi
  simp only [BitVec.getElem_extractLsb', BitVec.getLsbD_append]
  simp [show k + i < m by omega]

/-- Bits above the tail of an append are the head's. -/
theorem extract_append_high {n m : Nat} (x : BitVec n) (y : BitVec m) (k len : Nat) (h : m ≤ k) :
    (x ++ y).extractLsb' k len = x.extractLsb' (k - m) len := by
  ext i hi
  simp only [BitVec.getElem_extractLsb', BitVec.getLsbD_append]
  simp [show ¬ (k + i < m) by omega, show k + i - m = k - m + i by omega]

/-- The whole vector extracted. -/
theorem extract_whole {n : Nat} (x : BitVec n) : x.extractLsb' 0 n = x := by simp

/-! ### Type T1 -/

@[simp] theorem opcodeField_packT1 (op : BitVec 5) (x : Reg) (c : BitVec 8) : opcodeField (packT1 op x c) = op := by
  unfold opcodeField packT1
  rw [extract_append_high _ _ _ _ (by decide), extract_append_high _ _ _ _ (by decide)]
  exact extract_whole op

@[simp] theorem reg0Field_packT1 (op : BitVec 5) (x : Reg) (c : BitVec 8) : reg0Field (packT1 op x c) = x := by
  unfold reg0Field packT1
  rw [extract_append_high _ _ _ _ (by decide), extract_append_low _ _ _ _ (by decide)]
  exact (congrArg Reg.ofBits (extract_whole x.toBits)).trans (Reg.ofBits_toBits x)

@[simp] theorem const8Field_packT1 (op : BitVec 5) (x : Reg) (c : BitVec 8) : const8Field (packT1 op x c) = c := by
  unfold const8Field packT1
  rw [extract_append_low _ _ _ _ (by decide)]
  exact extract_whole c

/-! ### Type T2 -/

@[simp] theorem opcodeField_packT2 (op : BitVec 5) (x y : Reg) (f : BitVec 5) : opcodeField (packT2 op x y f) = op := by
  unfold opcodeField packT2
  rw [extract_append_high _ _ _ _ (by decide), extract_append_high _ _ _ _ (by decide), extract_append_high _ _ _ _ (by decide)]
  exact extract_whole op

@[simp] theorem reg0Field_packT2 (op : BitVec 5) (x y : Reg) (f : BitVec 5) : reg0Field (packT2 op x y f) = x := by
  unfold reg0Field packT2
  rw [extract_append_high _ _ _ _ (by decide), extract_append_high _ _ _ _ (by decide), extract_append_low _ _ _ _ (by decide)]
  exact (congrArg Reg.ofBits (extract_whole x.toBits)).trans (Reg.ofBits_toBits x)

@[simp] theorem reg1Field_packT2 (op : BitVec 5) (x y : Reg) (f : BitVec 5) : reg1Field (packT2 op x y f) = y := by
  unfold reg1Field packT2
  rw [extract_append_high _ _ _ _ (by decide), extract_append_low _ _ _ _ (by decide)]
  exact (congrArg Reg.ofBits (extract_whole y.toBits)).trans (Reg.ofBits_toBits y)

@[simp] theorem f1Field_packT2 (op : BitVec 5) (x y : Reg) (f : BitVec 5) : f1Field (packT2 op x y f) = f := by
  unfold f1Field packT2
  rw [extract_append_low _ _ _ _ (by decide)]
  exact extract_whole f

/-! ### Type T3 -/

@[simp] theorem opcodeField_packT3 (op : BitVec 5) (l : Addr) : opcodeField (packT3 op l) = op := by
  unfold opcodeField packT3
  rw [extract_append_high _ _ _ _ (by decide)]
  exact extract_whole op

@[simp] theorem f2Field_packT3 (op : BitVec 5) (l : Addr) : f2Field (packT3 op l) = l := by
  unfold f2Field packT3
  rw [extract_append_low _ _ _ _ (by decide)]
  exact extract_whole l

/-! ### Types T4 and T4N -/

@[simp] theorem opcodeField_packT4 (op : BitVec 5) (x y z : Reg) (n : BitVec 2) : opcodeField (packT4 op x y z n) = op := by
  unfold opcodeField packT4
  rw [extract_append_high _ _ _ _ (by decide), extract_append_high _ _ _ _ (by decide), extract_append_high _ _ _ _ (by decide),
    extract_append_high _ _ _ _ (by decide)]
  exact extract_whole op

@[simp] theorem reg0Field_packT4 (op : BitVec 5) (x y z : Reg) (n : BitVec 2) : reg0Field (packT4 op x y z n) = x := by
  unfold reg0Field packT4
  rw [extract_append_high _ _ _ _ (by decide), extract_append_high _ _ _ _ (by decide), extract_append_high _ _ _ _ (by decide),
    extract_append_low _ _ _ _ (by decide)]
  exact (congrArg Reg.ofBits (extract_whole x.toBits)).trans (Reg.ofBits_toBits x)

@[simp] theorem reg1Field_packT4 (op : BitVec 5) (x y z : Reg) (n : BitVec 2) : reg1Field (packT4 op x y z n) = y := by
  unfold reg1Field packT4
  rw [extract_append_high _ _ _ _ (by decide), extract_append_high _ _ _ _ (by decide), extract_append_low _ _ _ _ (by decide)]
  exact (congrArg Reg.ofBits (extract_whole y.toBits)).trans (Reg.ofBits_toBits y)

@[simp] theorem reg2Field_packT4 (op : BitVec 5) (x y z : Reg) (n : BitVec 2) : reg2Field (packT4 op x y z n) = z := by
  unfold reg2Field packT4
  rw [extract_append_high _ _ _ _ (by decide), extract_append_low _ _ _ _ (by decide)]
  exact (congrArg Reg.ofBits (extract_whole z.toBits)).trans (Reg.ofBits_toBits z)

@[simp] theorem countField_packT4 (op : BitVec 5) (x y z : Reg) (n : BitVec 2) : countField (packT4 op x y z n) = n := by
  unfold countField packT4
  rw [extract_append_low _ _ _ _ (by decide)]
  exact extract_whole n

/-! ### Type T5 -/

@[simp] theorem opcodeField_packT5 (op : BitVec 5) (x y : Reg) (n : BitVec 4) : opcodeField (packT5 op x y n) = op := by
  unfold opcodeField packT5
  rw [extract_append_high _ _ _ _ (by decide), extract_append_high _ _ _ _ (by decide), extract_append_high _ _ _ _ (by decide),
    extract_append_high _ _ _ _ (by decide)]
  exact extract_whole op

@[simp] theorem reg0Field_packT5 (op : BitVec 5) (x y : Reg) (n : BitVec 4) : reg0Field (packT5 op x y n) = x := by
  unfold reg0Field packT5
  rw [extract_append_high _ _ _ _ (by decide), extract_append_high _ _ _ _ (by decide), extract_append_high _ _ _ _ (by decide),
    extract_append_low _ _ _ _ (by decide)]
  exact (congrArg Reg.ofBits (extract_whole x.toBits)).trans (Reg.ofBits_toBits x)

@[simp] theorem reg1Field_packT5 (op : BitVec 5) (x y : Reg) (n : BitVec 4) : reg1Field (packT5 op x y n) = y := by
  unfold reg1Field packT5
  rw [extract_append_high _ _ _ _ (by decide), extract_append_high _ _ _ _ (by decide), extract_append_low _ _ _ _ (by decide)]
  exact (congrArg Reg.ofBits (extract_whole y.toBits)).trans (Reg.ofBits_toBits y)

@[simp] theorem const4Field_packT5 (op : BitVec 5) (x y : Reg) (n : BitVec 4) : const4Field (packT5 op x y n) = n := by
  unfold const4Field packT5
  rw [extract_append_high _ _ _ _ (by decide), extract_append_low _ _ _ _ (by decide)]
  exact extract_whole n

/-! ### PUSH and POP -/

@[simp] theorem opcodeField_packCounted (op : BitVec 5) (regs : List Reg) : opcodeField (packCounted op regs) = op := by
  unfold packCounted
  split <;> simp

end Sys2Proof
end

