-- ==== Sys2Proof/Laws/State.lean ====
section
/-! SUPPORT. One lemma per field per update of State, true by rfl, so that no later proof unfolds a record update; and the register
file's read-after-write laws. -/

namespace Sys2Proof.Machine

/-! ### setReg -/

@[simp] theorem State.setReg_params (s : State) (r : Reg) (v : Word) : (s.setReg r v).params = s.params := rfl
@[simp] theorem State.setReg_regs (s : State) (r : Reg) (v : Word) : (s.setReg r v).regs = s.regs.set r v := rfl
@[simp] theorem State.setReg_pc (s : State) (r : Reg) (v : Word) : (s.setReg r v).pc = s.pc := rfl
@[simp] theorem State.setReg_flags (s : State) (r : Reg) (v : Word) : (s.setReg r v).flags = s.flags := rfl
@[simp] theorem State.setReg_ir (s : State) (r : Reg) (v : Word) : (s.setReg r v).ir = s.ir := rfl
@[simp] theorem State.setReg_mar (s : State) (r : Reg) (v : Word) : (s.setReg r v).mar = s.mar := rfl
@[simp] theorem State.setReg_acc (s : State) (r : Reg) (v : Word) : (s.setReg r v).acc = s.acc := rfl
@[simp] theorem State.setReg_mem (s : State) (r : Reg) (v : Word) : (s.setReg r v).mem = s.mem := rfl
@[simp] theorem State.setReg_halted (s : State) (r : Reg) (v : Word) : (s.setReg r v).halted = s.halted := rfl
@[simp] theorem State.setReg_draws (s : State) (r : Reg) (v : Word) : (s.setReg r v).draws = s.draws := rfl
@[simp] theorem State.setReg_wordAt (s : State) (r : Reg) (v : Word) (x : Addr) : (s.setReg r v).wordAt x = s.wordAt x := rfl
@[simp] theorem State.setReg_unspec16 (s : State) (r : Reg) (v : Word) : (s.setReg r v).unspec16 = s.unspec16 := rfl
@[simp] theorem State.setReg_unspecBit (s : State) (r : Reg) (v : Word) (k : Nat) : (s.setReg r v).unspecBit k = s.unspecBit k := rfl

/-! ### setPc -/

@[simp] theorem State.setPc_params (s : State) (t : Addr) : (s.setPc t).params = s.params := rfl
@[simp] theorem State.setPc_regs (s : State) (t : Addr) : (s.setPc t).regs = s.regs := rfl
@[simp] theorem State.setPc_pc (s : State) (t : Addr) : (s.setPc t).pc = t := rfl
@[simp] theorem State.setPc_flags (s : State) (t : Addr) : (s.setPc t).flags = s.flags := rfl
@[simp] theorem State.setPc_ir (s : State) (t : Addr) : (s.setPc t).ir = s.ir := rfl
@[simp] theorem State.setPc_mar (s : State) (t : Addr) : (s.setPc t).mar = s.mar := rfl
@[simp] theorem State.setPc_acc (s : State) (t : Addr) : (s.setPc t).acc = s.acc := rfl
@[simp] theorem State.setPc_mem (s : State) (t : Addr) : (s.setPc t).mem = s.mem := rfl
@[simp] theorem State.setPc_halted (s : State) (t : Addr) : (s.setPc t).halted = s.halted := rfl
@[simp] theorem State.setPc_draws (s : State) (t : Addr) : (s.setPc t).draws = s.draws := rfl
@[simp] theorem State.setPc_getReg (s : State) (t : Addr) (q : Reg) : (s.setPc t).getReg q = s.getReg q := rfl
@[simp] theorem State.setPc_wordAt (s : State) (t : Addr) (x : Addr) : (s.setPc t).wordAt x = s.wordAt x := rfl
@[simp] theorem State.setPc_unspec16 (s : State) (t : Addr) : (s.setPc t).unspec16 = s.unspec16 := rfl
@[simp] theorem State.setPc_unspecBit (s : State) (t : Addr) (k : Nat) : (s.setPc t).unspecBit k = s.unspecBit k := rfl

/-! ### setFlags -/

@[simp] theorem State.setFlags_params (s : State) (f : Flags) : (s.setFlags f).params = s.params := rfl
@[simp] theorem State.setFlags_regs (s : State) (f : Flags) : (s.setFlags f).regs = s.regs := rfl
@[simp] theorem State.setFlags_pc (s : State) (f : Flags) : (s.setFlags f).pc = s.pc := rfl
@[simp] theorem State.setFlags_flags (s : State) (f : Flags) : (s.setFlags f).flags = f := rfl
@[simp] theorem State.setFlags_ir (s : State) (f : Flags) : (s.setFlags f).ir = s.ir := rfl
@[simp] theorem State.setFlags_mar (s : State) (f : Flags) : (s.setFlags f).mar = s.mar := rfl
@[simp] theorem State.setFlags_acc (s : State) (f : Flags) : (s.setFlags f).acc = s.acc := rfl
@[simp] theorem State.setFlags_mem (s : State) (f : Flags) : (s.setFlags f).mem = s.mem := rfl
@[simp] theorem State.setFlags_halted (s : State) (f : Flags) : (s.setFlags f).halted = s.halted := rfl
@[simp] theorem State.setFlags_draws (s : State) (f : Flags) : (s.setFlags f).draws = s.draws := rfl
@[simp] theorem State.setFlags_getReg (s : State) (f : Flags) (q : Reg) : (s.setFlags f).getReg q = s.getReg q := rfl
@[simp] theorem State.setFlags_wordAt (s : State) (f : Flags) (x : Addr) : (s.setFlags f).wordAt x = s.wordAt x := rfl
@[simp] theorem State.setFlags_unspec16 (s : State) (f : Flags) : (s.setFlags f).unspec16 = s.unspec16 := rfl
@[simp] theorem State.setFlags_unspecBit (s : State) (f : Flags) (k : Nat) : (s.setFlags f).unspecBit k = s.unspecBit k := rfl

/-! ### setAcc -/

@[simp] theorem State.setAcc_params (s : State) (v : Word) : (s.setAcc v).params = s.params := rfl
@[simp] theorem State.setAcc_regs (s : State) (v : Word) : (s.setAcc v).regs = s.regs := rfl
@[simp] theorem State.setAcc_pc (s : State) (v : Word) : (s.setAcc v).pc = s.pc := rfl
@[simp] theorem State.setAcc_flags (s : State) (v : Word) : (s.setAcc v).flags = s.flags := rfl
@[simp] theorem State.setAcc_ir (s : State) (v : Word) : (s.setAcc v).ir = s.ir := rfl
@[simp] theorem State.setAcc_mar (s : State) (v : Word) : (s.setAcc v).mar = s.mar := rfl
@[simp] theorem State.setAcc_acc (s : State) (v : Word) : (s.setAcc v).acc = v := rfl
@[simp] theorem State.setAcc_mem (s : State) (v : Word) : (s.setAcc v).mem = s.mem := rfl
@[simp] theorem State.setAcc_halted (s : State) (v : Word) : (s.setAcc v).halted = s.halted := rfl
@[simp] theorem State.setAcc_draws (s : State) (v : Word) : (s.setAcc v).draws = s.draws := rfl
@[simp] theorem State.setAcc_getReg (s : State) (v : Word) (q : Reg) : (s.setAcc v).getReg q = s.getReg q := rfl
@[simp] theorem State.setAcc_wordAt (s : State) (v : Word) (x : Addr) : (s.setAcc v).wordAt x = s.wordAt x := rfl
@[simp] theorem State.setAcc_unspec16 (s : State) (v : Word) : (s.setAcc v).unspec16 = s.unspec16 := rfl
@[simp] theorem State.setAcc_unspecBit (s : State) (v : Word) (k : Nat) : (s.setAcc v).unspecBit k = s.unspecBit k := rfl

/-! ### setMar -/

@[simp] theorem State.setMar_params (s : State) (a : Addr) : (s.setMar a).params = s.params := rfl
@[simp] theorem State.setMar_regs (s : State) (a : Addr) : (s.setMar a).regs = s.regs := rfl
@[simp] theorem State.setMar_pc (s : State) (a : Addr) : (s.setMar a).pc = s.pc := rfl
@[simp] theorem State.setMar_flags (s : State) (a : Addr) : (s.setMar a).flags = s.flags := rfl
@[simp] theorem State.setMar_ir (s : State) (a : Addr) : (s.setMar a).ir = s.ir := rfl
@[simp] theorem State.setMar_mar (s : State) (a : Addr) : (s.setMar a).mar = a := rfl
@[simp] theorem State.setMar_acc (s : State) (a : Addr) : (s.setMar a).acc = s.acc := rfl
@[simp] theorem State.setMar_mem (s : State) (a : Addr) : (s.setMar a).mem = s.mem := rfl
@[simp] theorem State.setMar_halted (s : State) (a : Addr) : (s.setMar a).halted = s.halted := rfl
@[simp] theorem State.setMar_draws (s : State) (a : Addr) : (s.setMar a).draws = s.draws := rfl
@[simp] theorem State.setMar_getReg (s : State) (a : Addr) (q : Reg) : (s.setMar a).getReg q = s.getReg q := rfl
@[simp] theorem State.setMar_wordAt (s : State) (a : Addr) (x : Addr) : (s.setMar a).wordAt x = s.wordAt x := rfl
@[simp] theorem State.setMar_unspec16 (s : State) (a : Addr) : (s.setMar a).unspec16 = s.unspec16 := rfl
@[simp] theorem State.setMar_unspecBit (s : State) (a : Addr) (k : Nat) : (s.setMar a).unspecBit k = s.unspecBit k := rfl

/-! ### setIr -/

@[simp] theorem State.setIr_params (s : State) (w : Word) : (s.setIr w).params = s.params := rfl
@[simp] theorem State.setIr_regs (s : State) (w : Word) : (s.setIr w).regs = s.regs := rfl
@[simp] theorem State.setIr_pc (s : State) (w : Word) : (s.setIr w).pc = s.pc := rfl
@[simp] theorem State.setIr_flags (s : State) (w : Word) : (s.setIr w).flags = s.flags := rfl
@[simp] theorem State.setIr_ir (s : State) (w : Word) : (s.setIr w).ir = w := rfl
@[simp] theorem State.setIr_mar (s : State) (w : Word) : (s.setIr w).mar = s.mar := rfl
@[simp] theorem State.setIr_acc (s : State) (w : Word) : (s.setIr w).acc = s.acc := rfl
@[simp] theorem State.setIr_mem (s : State) (w : Word) : (s.setIr w).mem = s.mem := rfl
@[simp] theorem State.setIr_halted (s : State) (w : Word) : (s.setIr w).halted = s.halted := rfl
@[simp] theorem State.setIr_draws (s : State) (w : Word) : (s.setIr w).draws = s.draws := rfl
@[simp] theorem State.setIr_getReg (s : State) (w : Word) (q : Reg) : (s.setIr w).getReg q = s.getReg q := rfl
@[simp] theorem State.setIr_wordAt (s : State) (w : Word) (x : Addr) : (s.setIr w).wordAt x = s.wordAt x := rfl
@[simp] theorem State.setIr_unspec16 (s : State) (w : Word) : (s.setIr w).unspec16 = s.unspec16 := rfl
@[simp] theorem State.setIr_unspecBit (s : State) (w : Word) (k : Nat) : (s.setIr w).unspecBit k = s.unspecBit k := rfl

/-! ### halt -/

@[simp] theorem State.halt_params (s : State) : s.halt.params = s.params := rfl
@[simp] theorem State.halt_regs (s : State) : s.halt.regs = s.regs := rfl
@[simp] theorem State.halt_pc (s : State) : s.halt.pc = s.pc := rfl
@[simp] theorem State.halt_flags (s : State) : s.halt.flags = s.flags := rfl
@[simp] theorem State.halt_ir (s : State) : s.halt.ir = s.ir := rfl
@[simp] theorem State.halt_mar (s : State) : s.halt.mar = s.mar := rfl
@[simp] theorem State.halt_acc (s : State) : s.halt.acc = s.acc := rfl
@[simp] theorem State.halt_mem (s : State) : s.halt.mem = s.mem := rfl
@[simp] theorem State.halt_halted (s : State) : s.halt.halted = true := rfl
@[simp] theorem State.halt_draws (s : State) : s.halt.draws = s.draws := rfl
@[simp] theorem State.halt_getReg (s : State) (q : Reg) : s.halt.getReg q = s.getReg q := rfl
@[simp] theorem State.halt_wordAt (s : State) (x : Addr) : s.halt.wordAt x = s.wordAt x := rfl
@[simp] theorem State.halt_unspec16 (s : State) : s.halt.unspec16 = s.unspec16 := rfl
@[simp] theorem State.halt_unspecBit (s : State) (k : Nat) : s.halt.unspecBit k = s.unspecBit k := rfl

/-! ### setMem -/

@[simp] theorem State.setMem_params (s : State) (m : Memory) : (s.setMem m).params = s.params := rfl
@[simp] theorem State.setMem_regs (s : State) (m : Memory) : (s.setMem m).regs = s.regs := rfl
@[simp] theorem State.setMem_pc (s : State) (m : Memory) : (s.setMem m).pc = s.pc := rfl
@[simp] theorem State.setMem_flags (s : State) (m : Memory) : (s.setMem m).flags = s.flags := rfl
@[simp] theorem State.setMem_ir (s : State) (m : Memory) : (s.setMem m).ir = s.ir := rfl
@[simp] theorem State.setMem_mar (s : State) (m : Memory) : (s.setMem m).mar = s.mar := rfl
@[simp] theorem State.setMem_acc (s : State) (m : Memory) : (s.setMem m).acc = s.acc := rfl
@[simp] theorem State.setMem_mem (s : State) (m : Memory) : (s.setMem m).mem = m := rfl
@[simp] theorem State.setMem_halted (s : State) (m : Memory) : (s.setMem m).halted = s.halted := rfl
@[simp] theorem State.setMem_draws (s : State) (m : Memory) : (s.setMem m).draws = s.draws := rfl
@[simp] theorem State.setMem_getReg (s : State) (m : Memory) (q : Reg) : (s.setMem m).getReg q = s.getReg q := rfl
@[simp] theorem State.setMem_unspec16 (s : State) (m : Memory) : (s.setMem m).unspec16 = s.unspec16 := rfl
@[simp] theorem State.setMem_unspecBit (s : State) (m : Memory) (k : Nat) : (s.setMem m).unspecBit k = s.unspecBit k := rfl

/-! ### drew -/

@[simp] theorem State.drew_params (s : State) (n : Nat) : (s.drew n).params = s.params := rfl
@[simp] theorem State.drew_regs (s : State) (n : Nat) : (s.drew n).regs = s.regs := rfl
@[simp] theorem State.drew_pc (s : State) (n : Nat) : (s.drew n).pc = s.pc := rfl
@[simp] theorem State.drew_flags (s : State) (n : Nat) : (s.drew n).flags = s.flags := rfl
@[simp] theorem State.drew_ir (s : State) (n : Nat) : (s.drew n).ir = s.ir := rfl
@[simp] theorem State.drew_mar (s : State) (n : Nat) : (s.drew n).mar = s.mar := rfl
@[simp] theorem State.drew_acc (s : State) (n : Nat) : (s.drew n).acc = s.acc := rfl
@[simp] theorem State.drew_mem (s : State) (n : Nat) : (s.drew n).mem = s.mem := rfl
@[simp] theorem State.drew_halted (s : State) (n : Nat) : (s.drew n).halted = s.halted := rfl
@[simp] theorem State.drew_draws (s : State) (n : Nat) : (s.drew n).draws = s.draws + n := rfl
@[simp] theorem State.drew_getReg (s : State) (n : Nat) (q : Reg) : (s.drew n).getReg q = s.getReg q := rfl
@[simp] theorem State.drew_wordAt (s : State) (n : Nat) (x : Addr) : (s.drew n).wordAt x = s.wordAt x := rfl

@[simp] theorem State.setMem_wordAt (s : State) (m : Memory) (x : Addr) : (s.setMem m).wordAt x = Memory.read m x.toNat := rfl

/-! ### The register file -/

/-- Reading a register after a write: the written one gives the value, every other is as before (R8, R10). -/
theorem Regs.get_set (x : Regs) (r q : Reg) (v : Word) : (x.set r v).get q = if q = r then v else x.get q := by
  cases r <;> cases q <;> rfl

/-- `x[q]` after `x[r] <- v`. -/
theorem State.getReg_setReg (s : State) (r q : Reg) (v : Word) :
    (s.setReg r v).getReg q = if q = r then v else s.getReg q := Regs.get_set s.regs r q v

@[simp] theorem State.getReg_setReg_self (s : State) (r : Reg) (v : Word) : (s.setReg r v).getReg r = v := by
  simp [State.getReg_setReg]

/-- Another register is unchanged. -/
theorem State.getReg_setReg_of_ne (s : State) (r q : Reg) (v : Word) (h : q ≠ r) : (s.setReg r v).getReg q = s.getReg q := by
  simp [State.getReg_setReg, h]

end Sys2Proof.Machine
end

