-- ==== Sys2Proof/Laws/Memory.lean ====
section
/-! SUPPORT. The laws of the memory: read after write, and that every memory operation keeps the canonical form
(spec/20_memory.md R34, spec/10_state.md R18). -/

namespace Sys2Proof.Machine

/-- A read of the address just written gives the word written. -/
@[simp] theorem Memory.read_write_self (m : Memory) (a : Nat) (v : Word) : Memory.read (Memory.write m a v) a = some v := by
  induction m with
  | nil => simp [Memory.write, Memory.read]
  | cons c rest ih =>
    obtain ⟨k, w⟩ := c
    simp only [Memory.write]
    split
    · simp [Memory.read]
    · split
      · simp [Memory.read]
      · next h => simp [Memory.read, ih, Ne.symm h]

/-- A write leaves every other address alone. -/
theorem Memory.read_write_of_ne (m : Memory) (a b : Nat) (v : Word) (h : b ≠ a) :
    Memory.read (Memory.write m a v) b = Memory.read m b := by
  induction m with
  | nil => simp [Memory.write, Memory.read, Ne.symm h]
  | cons c rest ih =>
    obtain ⟨k, w⟩ := c
    simp only [Memory.write]
    split
    · simp [Memory.read, Ne.symm h]
    · split
      · next hk => subst hk; simp [Memory.read, Ne.symm h]
      · simp [Memory.read, ih]

/-- Reading any address after a write. -/
theorem Memory.read_write (m : Memory) (a b : Nat) (v : Word) :
    Memory.read (Memory.write m a v) b = if b = a then some v else Memory.read m b := by
  by_cases h : b = a
  · subst h; simp
  · simp [Memory.read_write_of_ne _ _ _ _ h, h]

/-- A write inside the address space keeps the addresses strictly rising above any lower bound below the address. -/
theorem Memory.write_wfFrom (m : Memory) (lo a : Nat) (v : Word) (hlo : lo ≤ a) (ha : a < 2048)
    (h : Memory.wfFrom lo m = true) : Memory.wfFrom lo (Memory.write m a v) = true := by
  induction m generalizing lo with
  | nil => simp [Memory.write, Memory.wfFrom, hlo, ha]
  | cons c rest ih =>
    obtain ⟨k, w⟩ := c
    simp only [Memory.wfFrom, Bool.and_eq_true, decide_eq_true_eq] at h
    obtain ⟨⟨h1, h2⟩, h3⟩ := h
    simp only [Memory.write]
    split
    · next hk => simp [Memory.wfFrom, hlo, ha, h2, h3, Nat.succ_le_of_lt hk]
    · next hk =>
      split
      · next he => subst he; simp [Memory.wfFrom, hlo, ha, h3]
      · next he =>
        have : k + 1 ≤ a := by omega
        simp [Memory.wfFrom, h1, h2, ih (k + 1) this h3]

/-- A write at an 11-bit address keeps the canonical form. -/
theorem Memory.write_wf (m : Memory) (a : Addr) (v : Word) (h : Memory.wf m = true) :
    Memory.wf (Memory.write m a.toNat v) = true :=
  Memory.write_wfFrom m 0 a.toNat v (Nat.zero_le _) a.isLt h

/-- Loading an image gives the canonical form. -/
theorem Memory.load_wf (image : List (Addr × Word)) : Memory.wf (Memory.load image) = true := by
  induction image with
  | nil => rfl
  | cons c rest ih => exact Memory.write_wf _ c.1 c.2 ih

/-- `MemWrite` keeps the canonical form. -/
theorem memWrite_wf (a : Addr) (v : Word) (s : State) (h : Memory.wf s.mem = true) : Memory.wf (memWrite a v s).mem = true :=
  Memory.write_wf s.mem a v h

/-- The memory right after reset has the canonical form. -/
theorem reset_mem_wf : Memory.wf State.reset.mem = true := rfl

end Sys2Proof.Machine
end

