-- ==== Sys2Proof/Laws/Ops.lean ====
section
/-! SUPPORT. What each shared operation can do, said once: its unchanged fields as simp lemmas, its results, and for the operations that
can stop an inversion lemma. -/

namespace Sys2Proof.Machine

/-! ### Memory access and fetch (R34, R14) -/

/-- `MemRead` answers the word at the address and only moves MAR. -/
theorem memRead_ok_iff (a : Addr) (s t : State) (v : Word) : memRead a s = .ok (v, t) ↔ s.wordAt a = some v ∧ t = s.setMar a := by
  cases h : s.wordAt a <;> simp [memRead, h, eq_comm]

/-- `MemRead` stops only by `UnsetRead`, on a word without a value. -/
theorem memRead_error_iff (a : Addr) (s : State) (f : Fault) :
    memRead a s = .error f ↔ s.wordAt a = none ∧ f = .unsetRead a (s.setMar a) := by
  cases h : s.wordAt a <;> simp [memRead, h, eq_comm]

/-- `MemRead` of a word that has a value. -/
theorem memRead_of_some (a : Addr) (s : State) (v : Word) (h : s.wordAt a = some v) : memRead a s = .ok (v, s.setMar a) :=
  (memRead_ok_iff a s _ v).mpr ⟨h, rfl⟩

/-- `MemRead` of a word that has none. -/
theorem memRead_of_none (a : Addr) (s : State) (h : s.wordAt a = none) : memRead a s = .error (.unsetRead a (s.setMar a)) :=
  (memRead_error_iff a s _).mpr ⟨h, rfl⟩

/-- Everything a successful fetch does. -/
theorem fetch_ok_iff (s t : State) (inst : Word) :
    fetch s = .ok (inst, t) ↔ s.wordAt s.pc = some inst ∧ t = ((s.setMar s.pc).setIr inst).setPc (s.pc + 1) := by
  unfold fetch
  cases h : s.wordAt s.pc with
  | none => simp [memRead_of_none _ _ h]
  | some v =>
    simp only [memRead_of_some _ _ _ h, Except.ok.injEq, Prod.mk.injEq, Option.some.injEq]
    constructor
    · rintro ⟨rfl, rfl⟩; exact ⟨rfl, rfl⟩
    · rintro ⟨rfl, rfl⟩; exact ⟨rfl, rfl⟩

/-- A fetch stops only by `UnsetRead` of the instruction word. -/
theorem fetch_error_iff (s : State) (f : Fault) :
    fetch s = .error f ↔ s.wordAt s.pc = none ∧ f = .unsetRead s.pc (s.setMar s.pc) := by
  unfold fetch
  cases h : s.wordAt s.pc with
  | none => simp [memRead_of_none _ _ h, eq_comm]
  | some v => simp [memRead_of_some _ _ _ h]

/-! ### MemWrite (R34) -/

@[simp] theorem memWrite_params (a : Addr) (v : Word) (s : State) : (memWrite a v s).params = s.params := by
  rfl
@[simp] theorem memWrite_regs (a : Addr) (v : Word) (s : State) : (memWrite a v s).regs = s.regs := by
  rfl
@[simp] theorem memWrite_pc (a : Addr) (v : Word) (s : State) : (memWrite a v s).pc = s.pc := by
  rfl
@[simp] theorem memWrite_flags (a : Addr) (v : Word) (s : State) : (memWrite a v s).flags = s.flags := by
  rfl
@[simp] theorem memWrite_ir (a : Addr) (v : Word) (s : State) : (memWrite a v s).ir = s.ir := by
  rfl
@[simp] theorem memWrite_acc (a : Addr) (v : Word) (s : State) : (memWrite a v s).acc = s.acc := by
  rfl
@[simp] theorem memWrite_halted (a : Addr) (v : Word) (s : State) : (memWrite a v s).halted = s.halted := by
  rfl
@[simp] theorem memWrite_draws (a : Addr) (v : Word) (s : State) : (memWrite a v s).draws = s.draws := by
  rfl
@[simp] theorem memWrite_getReg (a : Addr) (v : Word) (s : State) (q : Reg) : (memWrite a v s).getReg q = s.getReg q := by
  rfl

@[simp] theorem memWrite_mar (a : Addr) (v : Word) (s : State) : (memWrite a v s).mar = a := rfl

@[simp] theorem memWrite_mem (a : Addr) (v : Word) (s : State) : (memWrite a v s).mem = Memory.write s.mem a.toNat v := rfl

/-- The word at any address after `MemWrite`. -/
theorem memWrite_wordAt (a b : Addr) (v : Word) (s : State) :
    (memWrite a v s).wordAt b = if b = a then some v else s.wordAt b := by
  show Memory.read (Memory.write s.mem a.toNat v) b.toNat = _
  rw [Memory.read_write]
  simp only [BitVec.toNat_inj]
  rfl

/-! ### The operand latch (R111) -/

@[simp] theorem afterBus_params (k : MbrClass) (r : Reg) (s : State) : (afterBus k r s).params = s.params := by
  unfold afterBus; split <;> rfl
@[simp] theorem afterBus_regs (k : MbrClass) (r : Reg) (s : State) : (afterBus k r s).regs = s.regs := by
  unfold afterBus; split <;> rfl
@[simp] theorem afterBus_pc (k : MbrClass) (r : Reg) (s : State) : (afterBus k r s).pc = s.pc := by
  unfold afterBus; split <;> rfl
@[simp] theorem afterBus_flags (k : MbrClass) (r : Reg) (s : State) : (afterBus k r s).flags = s.flags := by
  unfold afterBus; split <;> rfl
@[simp] theorem afterBus_ir (k : MbrClass) (r : Reg) (s : State) : (afterBus k r s).ir = s.ir := by
  unfold afterBus; split <;> rfl
@[simp] theorem afterBus_mar (k : MbrClass) (r : Reg) (s : State) : (afterBus k r s).mar = s.mar := by
  unfold afterBus; split <;> rfl
@[simp] theorem afterBus_acc (k : MbrClass) (r : Reg) (s : State) : (afterBus k r s).acc = s.acc := by
  unfold afterBus; split <;> rfl
@[simp] theorem afterBus_mem (k : MbrClass) (r : Reg) (s : State) : (afterBus k r s).mem = s.mem := by
  unfold afterBus; split <;> rfl
@[simp] theorem afterBus_halted (k : MbrClass) (r : Reg) (s : State) : (afterBus k r s).halted = s.halted := by
  unfold afterBus; split <;> rfl
@[simp] theorem afterBus_getReg (k : MbrClass) (r : Reg) (s : State) (q : Reg) : (afterBus k r s).getReg q = s.getReg q := by
  unfold afterBus; split <;> rfl
@[simp] theorem afterBus_wordAt (k : MbrClass) (r : Reg) (s : State) (x : Addr) : (afterBus k r s).wordAt x = s.wordAt x := by
  unfold afterBus; split <;> rfl

@[simp] theorem clobberMbr_params (k : MbrClass) (s : State) : (clobberMbr k s).params = s.params := by
  unfold clobberMbr; split <;> rfl
@[simp] theorem clobberMbr_pc (k : MbrClass) (s : State) : (clobberMbr k s).pc = s.pc := by
  unfold clobberMbr; split <;> rfl
@[simp] theorem clobberMbr_flags (k : MbrClass) (s : State) : (clobberMbr k s).flags = s.flags := by
  unfold clobberMbr; split <;> rfl
@[simp] theorem clobberMbr_ir (k : MbrClass) (s : State) : (clobberMbr k s).ir = s.ir := by
  unfold clobberMbr; split <;> rfl
@[simp] theorem clobberMbr_mar (k : MbrClass) (s : State) : (clobberMbr k s).mar = s.mar := by
  unfold clobberMbr; split <;> rfl
@[simp] theorem clobberMbr_acc (k : MbrClass) (s : State) : (clobberMbr k s).acc = s.acc := by
  unfold clobberMbr; split <;> rfl
@[simp] theorem clobberMbr_mem (k : MbrClass) (s : State) : (clobberMbr k s).mem = s.mem := by
  unfold clobberMbr; split <;> rfl
@[simp] theorem clobberMbr_halted (k : MbrClass) (s : State) : (clobberMbr k s).halted = s.halted := by
  unfold clobberMbr; split <;> rfl
@[simp] theorem clobberMbr_wordAt (k : MbrClass) (s : State) (x : Addr) : (clobberMbr k s).wordAt x = s.wordAt x := by
  unfold clobberMbr; split <;> rfl

/-- The clobber reaches no register but R7, and R7 only where the latch is in use. -/
theorem clobberMbr_getReg (k : MbrClass) (s : State) (q : Reg) (h : q = .r7 → mbrActive s.params k = false) :
    (clobberMbr k s).getReg q = s.getReg q := by
  unfold clobberMbr
  split
  · next ha => rw [State.drew_getReg, State.getReg_setReg_of_ne]; intro e; simp [h e] at ha
  · rfl

/-- A register that is not R7, or any register where the latch is not in use, is read exactly. -/
theorem busValue_of_closed (k : MbrClass) (r : Reg) (s : State) (h : r = .r7 → mbrActive s.params k = false) :
    busValue k r s = s.getReg r := by
  unfold busValue busOpen
  by_cases e : r = .r7
  · simp [h e]
  · simp [e]

@[simp] theorem State.openAcc_params (s : State) : (s.openAcc).params = s.params := by
  rfl
@[simp] theorem State.openAcc_regs (s : State) : (s.openAcc).regs = s.regs := by
  rfl
@[simp] theorem State.openAcc_pc (s : State) : (s.openAcc).pc = s.pc := by
  rfl
@[simp] theorem State.openAcc_flags (s : State) : (s.openAcc).flags = s.flags := by
  rfl
@[simp] theorem State.openAcc_ir (s : State) : (s.openAcc).ir = s.ir := by
  rfl
@[simp] theorem State.openAcc_mar (s : State) : (s.openAcc).mar = s.mar := by
  rfl
@[simp] theorem State.openAcc_mem (s : State) : (s.openAcc).mem = s.mem := by
  rfl
@[simp] theorem State.openAcc_halted (s : State) : (s.openAcc).halted = s.halted := by
  rfl
@[simp] theorem State.openAcc_getReg (s : State) (q : Reg) : (s.openAcc).getReg q = s.getReg q := by
  rfl
@[simp] theorem State.openAcc_wordAt (s : State) (x : Addr) : (s.openAcc).wordAt x = s.wordAt x := by
  rfl

@[simp] theorem endClassB_params (s : State) : (endClassB s).params = s.params := by
  simp [endClassB]
@[simp] theorem endClassB_pc (s : State) : (endClassB s).pc = s.pc := by
  simp [endClassB]
@[simp] theorem endClassB_flags (s : State) : (endClassB s).flags = s.flags := by
  simp [endClassB]
@[simp] theorem endClassB_ir (s : State) : (endClassB s).ir = s.ir := by
  simp [endClassB]
@[simp] theorem endClassB_mar (s : State) : (endClassB s).mar = s.mar := by
  simp [endClassB]
@[simp] theorem endClassB_mem (s : State) : (endClassB s).mem = s.mem := by
  simp [endClassB]
@[simp] theorem endClassB_halted (s : State) : (endClassB s).halted = s.halted := by
  simp [endClassB]
@[simp] theorem endClassB_wordAt (s : State) (x : Addr) : (endClassB s).wordAt x = s.wordAt x := by
  simp [endClassB]

/-- The end of a class B memory instruction reaches no register but R7, and R7 only where the latch is in use. -/
theorem endClassB_getReg (s : State) (q : Reg) (h : q = .r7 → mbrActive s.params .b = false) :
    (endClassB s).getReg q = s.getReg q := by
  unfold endClassB
  rw [clobberMbr_getReg _ _ _ (by simpa using h)]
  simp

/-! ### The ALU (R110, R112) -/

@[simp] theorem aluFlags_params (op : AluOp) (a b r : Word) (s : State) : (aluFlags op a b r s).params = s.params := by
  cases op <;> rfl
@[simp] theorem aluFlags_regs (op : AluOp) (a b r : Word) (s : State) : (aluFlags op a b r s).regs = s.regs := by
  cases op <;> rfl
@[simp] theorem aluFlags_pc (op : AluOp) (a b r : Word) (s : State) : (aluFlags op a b r s).pc = s.pc := by
  cases op <;> rfl
@[simp] theorem aluFlags_ir (op : AluOp) (a b r : Word) (s : State) : (aluFlags op a b r s).ir = s.ir := by
  cases op <;> rfl
@[simp] theorem aluFlags_mar (op : AluOp) (a b r : Word) (s : State) : (aluFlags op a b r s).mar = s.mar := by
  cases op <;> rfl
@[simp] theorem aluFlags_acc (op : AluOp) (a b r : Word) (s : State) : (aluFlags op a b r s).acc = s.acc := by
  cases op <;> rfl
@[simp] theorem aluFlags_mem (op : AluOp) (a b r : Word) (s : State) : (aluFlags op a b r s).mem = s.mem := by
  cases op <;> rfl
@[simp] theorem aluFlags_halted (op : AluOp) (a b r : Word) (s : State) : (aluFlags op a b r s).halted = s.halted := by
  cases op <;> rfl
@[simp] theorem aluFlags_getReg (op : AluOp) (a b r : Word) (s : State) (q : Reg) : (aluFlags op a b r s).getReg q = s.getReg q := by
  cases op <;> rfl
@[simp] theorem aluFlags_wordAt (op : AluOp) (a b r : Word) (s : State) (x : Addr) : (aluFlags op a b r s).wordAt x = s.wordAt x := by
  cases op <;> rfl

@[simp] theorem aluEffects_params (op : AluOp) (a b r : Word) (s : State) : (aluEffects op a b r s).params = s.params := by
  unfold aluEffects; split <;> simp
@[simp] theorem aluEffects_regs (op : AluOp) (a b r : Word) (s : State) : (aluEffects op a b r s).regs = s.regs := by
  unfold aluEffects; split <;> simp
@[simp] theorem aluEffects_pc (op : AluOp) (a b r : Word) (s : State) : (aluEffects op a b r s).pc = s.pc := by
  unfold aluEffects; split <;> simp
@[simp] theorem aluEffects_ir (op : AluOp) (a b r : Word) (s : State) : (aluEffects op a b r s).ir = s.ir := by
  unfold aluEffects; split <;> simp
@[simp] theorem aluEffects_mar (op : AluOp) (a b r : Word) (s : State) : (aluEffects op a b r s).mar = s.mar := by
  unfold aluEffects; split <;> simp
@[simp] theorem aluEffects_acc (op : AluOp) (a b r : Word) (s : State) : (aluEffects op a b r s).acc = s.acc := by
  unfold aluEffects; split <;> simp
@[simp] theorem aluEffects_mem (op : AluOp) (a b r : Word) (s : State) : (aluEffects op a b r s).mem = s.mem := by
  unfold aluEffects; split <;> simp
@[simp] theorem aluEffects_halted (op : AluOp) (a b r : Word) (s : State) : (aluEffects op a b r s).halted = s.halted := by
  unfold aluEffects; split <;> simp
@[simp] theorem aluEffects_getReg (op : AluOp) (a b r : Word) (s : State) (q : Reg) : (aluEffects op a b r s).getReg q = s.getReg q := by
  unfold aluEffects; split <;> simp
@[simp] theorem aluEffects_wordAt (op : AluOp) (a b r : Word) (s : State) (x : Addr) : (aluEffects op a b r s).wordAt x = s.wordAt x := by
  unfold aluEffects; split <;> simp

/-- With `FLAGS_ON_ALU = preserve` no flag changes. -/
theorem aluEffects_flags_preserve (op : AluOp) (a b r : Word) (s : State) (h : s.params.flagsOnAlu = .preserve) :
    (aluEffects op a b r s).flags = s.flags := by
  simp [aluEffects, h]

@[simp] theorem aluDeliver_params (op : AluOp) (rd : Reg) (a b : Word) (s : State) : (aluDeliver op rd a b s).params = s.params := by
  simp [aluDeliver]
@[simp] theorem aluDeliver_pc (op : AluOp) (rd : Reg) (a b : Word) (s : State) : (aluDeliver op rd a b s).pc = s.pc := by
  simp [aluDeliver]
@[simp] theorem aluDeliver_ir (op : AluOp) (rd : Reg) (a b : Word) (s : State) : (aluDeliver op rd a b s).ir = s.ir := by
  simp [aluDeliver]
@[simp] theorem aluDeliver_mar (op : AluOp) (rd : Reg) (a b : Word) (s : State) : (aluDeliver op rd a b s).mar = s.mar := by
  simp [aluDeliver]
@[simp] theorem aluDeliver_mem (op : AluOp) (rd : Reg) (a b : Word) (s : State) : (aluDeliver op rd a b s).mem = s.mem := by
  simp [aluDeliver]
@[simp] theorem aluDeliver_halted (op : AluOp) (rd : Reg) (a b : Word) (s : State) : (aluDeliver op rd a b s).halted = s.halted := by
  simp [aluDeliver]
@[simp] theorem aluDeliver_wordAt (op : AluOp) (rd : Reg) (a b : Word) (s : State) (x : Addr) : (aluDeliver op rd a b s).wordAt x = s.wordAt x := by
  simp [aluDeliver]

@[simp] theorem aluDeliver_acc (op : AluOp) (rd : Reg) (a b : Word) (s : State) : (aluDeliver op rd a b s).acc = aluResult op a b := by
  simp [aluDeliver]

/-- The destination holds the result, every other register what it held. -/
theorem aluDeliver_getReg (op : AluOp) (rd q : Reg) (a b : Word) (s : State) :
    (aluDeliver op rd a b s).getReg q = if q = rd then aluResult op a b else s.getReg q := by
  simp [aluDeliver, State.getReg_setReg]

/-- With `FLAGS_ON_ALU = preserve` no flag changes. -/
theorem aluDeliver_flags_preserve (op : AluOp) (rd : Reg) (a b : Word) (s : State) (h : s.params.flagsOnAlu = .preserve) :
    (aluDeliver op rd a b s).flags = s.flags := by
  unfold aluDeliver
  rw [aluEffects_flags_preserve _ _ _ _ _ (by simpa using h)]
  simp

/-- With `FLAGS_ON_ALU = update` the flags are those of the operation. -/
theorem aluDeliver_flags_update (op : AluOp) (rd : Reg) (a b : Word) (s : State) (h : s.params.flagsOnAlu = .update) :
    (aluDeliver op rd a b s).flags = (aluFlags op a b (aluResult op a b) s).flags := by
  simp only [aluDeliver, aluEffects, State.setReg_params, State.setAcc_params, h]
  cases op <;> rfl

@[simp] theorem aluTwo_params (k : MbrClass) (op : AluOp) (rd ra : Reg) (b : Word) (s : State) : (aluTwo k op rd ra b s).params = s.params := by
  simp [aluTwo]
@[simp] theorem aluTwo_pc (k : MbrClass) (op : AluOp) (rd ra : Reg) (b : Word) (s : State) : (aluTwo k op rd ra b s).pc = s.pc := by
  simp [aluTwo]
@[simp] theorem aluTwo_ir (k : MbrClass) (op : AluOp) (rd ra : Reg) (b : Word) (s : State) : (aluTwo k op rd ra b s).ir = s.ir := by
  simp [aluTwo]
@[simp] theorem aluTwo_mar (k : MbrClass) (op : AluOp) (rd ra : Reg) (b : Word) (s : State) : (aluTwo k op rd ra b s).mar = s.mar := by
  simp [aluTwo]
@[simp] theorem aluTwo_mem (k : MbrClass) (op : AluOp) (rd ra : Reg) (b : Word) (s : State) : (aluTwo k op rd ra b s).mem = s.mem := by
  simp [aluTwo]
@[simp] theorem aluTwo_halted (k : MbrClass) (op : AluOp) (rd ra : Reg) (b : Word) (s : State) : (aluTwo k op rd ra b s).halted = s.halted := by
  simp [aluTwo]
@[simp] theorem aluTwo_wordAt (k : MbrClass) (op : AluOp) (rd ra : Reg) (b : Word) (s : State) (x : Addr) : (aluTwo k op rd ra b s).wordAt x = s.wordAt x := by
  simp [aluTwo]

@[simp] theorem aluTwo_acc (k : MbrClass) (op : AluOp) (rd ra : Reg) (b : Word) (s : State) :
    (aluTwo k op rd ra b s).acc = aluResult op (busValue k ra s) b := by
  simp [aluTwo]

/-- The destination holds the result exactly, R7 as the destination too. -/
theorem aluTwo_getReg_self (k : MbrClass) (op : AluOp) (rd ra : Reg) (b : Word) (s : State) :
    (aluTwo k op rd ra b s).getReg rd = aluResult op (busValue k ra s) b := by
  simp [aluTwo, aluDeliver_getReg]

/-- Any other register is unchanged, but for R7 where the latch is in use. -/
theorem aluTwo_getReg_of_ne (k : MbrClass) (op : AluOp) (rd ra q : Reg) (b : Word) (s : State) (hq : q ≠ rd)
    (h : q = .r7 → mbrActive s.params k = false) : (aluTwo k op rd ra b s).getReg q = s.getReg q := by
  unfold aluTwo
  rw [aluDeliver_getReg, if_neg hq, clobberMbr_getReg _ _ _ (by simpa using h)]
  simp

/-- With `FLAGS_ON_ALU = preserve` no flag changes. -/
theorem aluTwo_flags_preserve (k : MbrClass) (op : AluOp) (rd ra : Reg) (b : Word) (s : State)
    (h : s.params.flagsOnAlu = .preserve) : (aluTwo k op rd ra b s).flags = s.flags := by
  unfold aluTwo
  rw [aluDeliver_flags_preserve _ _ _ _ _ (by simpa using h)]
  simp

/-! ### Comparison (R145, R146) -/

@[simp] theorem compare_params (ra : Reg) (b : Word) (s : State) : (compare ra b s).params = s.params := by
  simp [compare]
@[simp] theorem compare_pc (ra : Reg) (b : Word) (s : State) : (compare ra b s).pc = s.pc := by
  simp [compare]
@[simp] theorem compare_ir (ra : Reg) (b : Word) (s : State) : (compare ra b s).ir = s.ir := by
  simp [compare]
@[simp] theorem compare_mar (ra : Reg) (b : Word) (s : State) : (compare ra b s).mar = s.mar := by
  simp [compare]
@[simp] theorem compare_mem (ra : Reg) (b : Word) (s : State) : (compare ra b s).mem = s.mem := by
  simp [compare]
@[simp] theorem compare_halted (ra : Reg) (b : Word) (s : State) : (compare ra b s).halted = s.halted := by
  simp [compare]
@[simp] theorem compare_wordAt (ra : Reg) (b : Word) (s : State) (x : Addr) : (compare ra b s).wordAt x = s.wordAt x := by
  simp [compare]

@[simp] theorem compare_flags (ra : Reg) (b : Word) (s : State) : (compare ra b s).flags = cmpFlags (busValue .a ra s) b := by
  simp [compare]

@[simp] theorem compare_acc (ra : Reg) (b : Word) (s : State) : (compare ra b s).acc = busValue .a ra s - b := by
  simp [compare]

/-- A comparison reaches no register but R7, and R7 only where the latch is in use. -/
theorem compare_getReg (ra q : Reg) (b : Word) (s : State) (h : q = .r7 → mbrActive s.params .a = false) :
    (compare ra b s).getReg q = s.getReg q := by
  unfold compare
  rw [clobberMbr_getReg _ _ _ (by simpa using h)]
  simp

/-! ### Branches (R140) -/

@[simp] theorem branchIf_params (c : Bool) (l : Addr) (s : State) : (branchIf c l s).params = s.params := by
  cases c <;> rfl
@[simp] theorem branchIf_regs (c : Bool) (l : Addr) (s : State) : (branchIf c l s).regs = s.regs := by
  cases c <;> rfl
@[simp] theorem branchIf_flags (c : Bool) (l : Addr) (s : State) : (branchIf c l s).flags = s.flags := by
  cases c <;> rfl
@[simp] theorem branchIf_ir (c : Bool) (l : Addr) (s : State) : (branchIf c l s).ir = s.ir := by
  cases c <;> rfl
@[simp] theorem branchIf_mar (c : Bool) (l : Addr) (s : State) : (branchIf c l s).mar = s.mar := by
  cases c <;> rfl
@[simp] theorem branchIf_acc (c : Bool) (l : Addr) (s : State) : (branchIf c l s).acc = s.acc := by
  cases c <;> rfl
@[simp] theorem branchIf_mem (c : Bool) (l : Addr) (s : State) : (branchIf c l s).mem = s.mem := by
  cases c <;> rfl
@[simp] theorem branchIf_halted (c : Bool) (l : Addr) (s : State) : (branchIf c l s).halted = s.halted := by
  cases c <;> rfl
@[simp] theorem branchIf_draws (c : Bool) (l : Addr) (s : State) : (branchIf c l s).draws = s.draws := by
  cases c <;> rfl
@[simp] theorem branchIf_getReg (c : Bool) (l : Addr) (s : State) (q : Reg) : (branchIf c l s).getReg q = s.getReg q := by
  cases c <;> rfl
@[simp] theorem branchIf_wordAt (c : Bool) (l : Addr) (s : State) (x : Addr) : (branchIf c l s).wordAt x = s.wordAt x := by
  cases c <;> rfl

@[simp] theorem branchIf_pc (c : Bool) (l : Addr) (s : State) : (branchIf c l s).pc = if c then l else s.pc := by
  cases c <;> rfl

/-! ### The stack (R95 to R97) -/

/-- Everything one iteration of PUSH can do when it goes on. -/
theorem pushOne_ok (r : Reg) (s t : State) (h : pushOne r s = .ok t) :
    ∃ a, effAddr s.params (pushAt s.params (s.getReg .r5)) = some a ∧
      t = memWrite a (busValue .b r s) ((afterBus .b r s).setReg .r5 (s.getReg .r5 + pushDelta s.params)) := by
  unfold pushOne at h
  split at h
  · next a ha => exact ⟨a, ha, by simpa using h.symm⟩
  · cases h

/-- One iteration of PUSH at an address the convention accepts. -/
theorem pushOne_of_addr (r : Reg) (s : State) (a : Addr)
    (h : effAddr s.params (pushAt s.params (s.getReg .r5)) = some a) :
    pushOne r s = .ok (memWrite a (busValue .b r s) ((afterBus .b r s).setReg .r5 (s.getReg .r5 + pushDelta s.params))) := by
  simp [pushOne, h]

/-- One iteration of POP at an address whose word has a value. -/
theorem popOne_of_word (r : Reg) (s : State) (a : Addr) (v : Word)
    (h : effAddr s.params (popAt s.params (s.getReg .r5)) = some a) (hv : s.wordAt a = some v) :
    popOne r s = .ok (((s.setMar a).setReg .r5 (s.getReg .r5 - pushDelta s.params)).setReg r v) := by
  simp [popOne, h, memRead_of_some _ _ _ hv]

/-- Everything one iteration of POP can do when it goes on. -/
theorem popOne_ok (r : Reg) (s t : State) (h : popOne r s = .ok t) :
    ∃ a v, effAddr s.params (popAt s.params (s.getReg .r5)) = some a ∧ s.wordAt a = some v ∧
      t = ((s.setMar a).setReg .r5 (s.getReg .r5 - pushDelta s.params)).setReg r v := by
  unfold popOne at h
  split at h
  · next a ha =>
    split at h
    · next v u hr =>
      obtain ⟨hv, rfl⟩ := (memRead_ok_iff _ _ _ _).mp hr
      exact ⟨a, v, ha, hv, by simpa using h.symm⟩
    · cases h
  · cases h

/-- An iteration of PUSH stops only by `AddressRange`, and leaves the state it found. -/
theorem pushOne_error_iff (r : Reg) (s : State) (f : Fault) :
    pushOne r s = .error f ↔
      effAddr s.params (pushAt s.params (s.getReg .r5)) = none ∧ f = .addressRange (pushAt s.params (s.getReg .r5)) s := by
  cases h : effAddr s.params (pushAt s.params (s.getReg .r5)) <;> simp [pushOne, h, eq_comm]

/-- An iteration of POP stops by `AddressRange` in the state it found, or by `UnsetRead` with MAR at the address read. -/
theorem popOne_error_iff (r : Reg) (s : State) (f : Fault) :
    popOne r s = .error f ↔
      (effAddr s.params (popAt s.params (s.getReg .r5)) = none ∧ f = .addressRange (popAt s.params (s.getReg .r5)) s) ∨
      ∃ a, effAddr s.params (popAt s.params (s.getReg .r5)) = some a ∧ s.wordAt a = none ∧ f = .unsetRead a (s.setMar a) := by
  cases h : effAddr s.params (popAt s.params (s.getReg .r5)) with
  | none => simp [popOne, h, eq_comm]
  | some a => cases hv : s.wordAt a <;> simp [popOne, h, memRead, hv, eq_comm]

/-- The iterations of PUSH over a list in two parts: the second part starts where the first one ends. -/
theorem pushAll_append (first rest : List Reg) (s : State) :
    pushAll (first ++ rest) s = (pushAll first s).bind (pushAll rest) := by
  induction first generalizing s with
  | nil => rfl
  | cons r first ih =>
    simp only [List.cons_append, pushAll]
    cases pushOne r s with
    | ok t => exact ih t
    | error f => rfl

/-- The iterations of POP over a list in two parts: the second part starts where the first one ends. -/
theorem popAll_append (first rest : List Reg) (s : State) :
    popAll (first ++ rest) s = (popAll first s).bind (popAll rest) := by
  induction first generalizing s with
  | nil => rfl
  | cons r first ih =>
    simp only [List.cons_append, popAll]
    cases popOne r s with
    | ok t => exact ih t
    | error f => rfl

/-- What the iterations of PUSH leave alone: everything but memory, R5, MAR and the count of free values. -/
theorem pushAll_frame (regs : List Reg) (s t : State) (h : pushAll regs s = .ok t) :
    t.params = s.params ∧ t.pc = s.pc ∧ t.flags = s.flags ∧ t.ir = s.ir ∧ t.acc = s.acc ∧ t.halted = s.halted ∧
      ∀ q, q ≠ .r5 → t.getReg q = s.getReg q := by
  induction regs generalizing s with
  | nil => cases h; simp
  | cons r rest ih =>
    simp only [pushAll] at h
    split at h
    · next u hu =>
      obtain ⟨a, -, rfl⟩ := pushOne_ok r s u hu
      obtain ⟨h1, h2, h3, h4, h5, h6, h7⟩ := ih _ h
      refine ⟨by simpa using h1, by simpa using h2, by simpa using h3, by simpa using h4, by simpa using h5, by simpa using h6, ?_⟩
      intro q hq
      rw [h7 q hq, memWrite_getReg, State.getReg_setReg_of_ne _ _ _ _ hq, afterBus_getReg]
    · cases h

/-- The iterations of PUSH keep the canonical form of memory. -/
theorem pushAll_wf (regs : List Reg) (s t : State) (h : pushAll regs s = .ok t) (hm : Memory.wf s.mem = true) :
    Memory.wf t.mem = true := by
  induction regs generalizing s with
  | nil => cases h; exact hm
  | cons r rest ih =>
    simp only [pushAll] at h
    split at h
    · next u hu =>
      obtain ⟨a, -, rfl⟩ := pushOne_ok r s u hu
      exact ih _ h (memWrite_wf a _ _ (by simpa using hm))
    · cases h

/-- What the iterations of POP leave alone: memory, and everything but R5, the registers named and MAR. -/
theorem popAll_frame (regs : List Reg) (s t : State) (h : popAll regs s = .ok t) :
    t.params = s.params ∧ t.pc = s.pc ∧ t.flags = s.flags ∧ t.ir = s.ir ∧ t.acc = s.acc ∧ t.mem = s.mem ∧ t.halted = s.halted ∧
      t.draws = s.draws ∧ ∀ q, q ≠ .r5 → q ∉ regs → t.getReg q = s.getReg q := by
  induction regs generalizing s with
  | nil => cases h; simp
  | cons r rest ih =>
    simp only [popAll] at h
    split at h
    · next u hu =>
      obtain ⟨a, v, -, -, rfl⟩ := popOne_ok r s u hu
      obtain ⟨h1, h2, h3, h4, h5, h6, h7, h8, h9⟩ := ih _ h
      refine ⟨by simpa using h1, by simpa using h2, by simpa using h3, by simpa using h4, by simpa using h5, by simpa using h6,
        by simpa using h7, by simpa using h8, ?_⟩
      intro q hq hm
      simp only [List.mem_cons, not_or] at hm
      rw [h9 q hq hm.2, State.getReg_setReg_of_ne _ _ _ _ hm.1, State.getReg_setReg_of_ne _ _ _ _ hq, State.setMar_getReg]
    · cases h

end Sys2Proof.Machine
end

