-- ==== Sys2Proof/Laws/Exec.lean ====
section
/-! SUPPORT. What each instruction that can stop does when it goes on, and what a step does when it goes on, said once. Every other
instruction's meaning is one next state, so its equation is its definition. -/

namespace Sys2Proof.Machine

/-- A register outside the latched list is not R7, or the class does not use the latch. -/
theorem not_mem_latched (p : Config.Params) (k : MbrClass) (q : Reg) :
    q ∉ latched p k ↔ (q = .r7 → mbrActive p k = false) := by
  unfold latched
  split <;> simp_all

/-- LDA went on: the word at the label had a value, and R7 received it. -/
theorem execLda_next (l : Addr) (s t : State) (h : execLda l s = .next t) :
    ∃ v, s.wordAt l = some v ∧ t = (s.setMar l).setReg .r7 v := by
  unfold execLda at h
  split at h
  · next v u hr =>
    obtain ⟨hv, rfl⟩ := (memRead_ok_iff _ _ _ _).mp hr
    exact ⟨v, hv, by simpa using h.symm⟩
  · cases h

/-- LDR went on: the address was accepted, its word had a value, and the destination received it after the latch was clobbered. -/
theorem execLdr_next (rd ra : Reg) (o : BitVec 5) (s t : State) (h : execLdr rd ra o s = .next t) :
    ∃ a v, effAddr s.params (busValue .b ra s + offset o) = some a ∧ s.wordAt a = some v ∧
      t = (endClassB ((afterBus .b ra s).setMar a)).setReg rd v := by
  unfold execLdr at h
  split at h
  · next a ha =>
    split at h
    · next v u hr =>
      obtain ⟨hv, rfl⟩ := (memRead_ok_iff _ _ _ _).mp hr
      exact ⟨a, v, ha, by simpa using hv, by simpa using h.symm⟩
    · cases h
  · cases h

/-- STRR went on: the address was accepted, and its word received the source. -/
theorem execStrr_next (rs ra : Reg) (o : BitVec 5) (s t : State) (h : execStrr rs ra o s = .next t) :
    ∃ a, effAddr s.params (busValue .b ra s + offset o) = some a ∧
      t = memWrite a (busValue .b rs (afterBus .b ra s)) (endClassB (afterBus .b rs (afterBus .b ra s))) := by
  unfold execStrr at h
  split at h
  · next a ha => exact ⟨a, ha, by simpa using h.symm⟩
  · cases h

/-- PUSH went on: all its iterations did, and the latch was clobbered at the end. -/
theorem execPush_next (regs : List Reg) (s t : State) (h : execPush regs s = .next t) :
    ∃ u, pushAll regs s = .ok u ∧ t = endClassB u := by
  unfold execPush at h
  split at h
  · cases h
  · split at h
    · next u hu => exact ⟨u, hu, by simpa using h.symm⟩
    · cases h

/-- POP went on: all its iterations did, and the latch was clobbered at the end. -/
theorem execPop_next (regs : List Reg) (s t : State) (h : execPop regs s = .next t) :
    ∃ u, popAll (popSequence s.params regs) s = .ok u ∧ t = endClassB u := by
  unfold execPop at h
  split at h
  · cases h
  · split at h
    · next u hu => exact ⟨u, hu, by simpa using h.symm⟩
    · cases h

/-- A step went on: the machine was halted and stays as it is, or the instruction fetched and decoded ran. -/
theorem step_next (s t : State) (h : step s = .next t) :
    (s.halted = true ∧ t = s) ∨
      (s.halted = false ∧ ∃ w i, s.wordAt s.pc = some w ∧ decode w = .instr i ∧ exec i (s.fetched w) = .next t) := by
  unfold step at h
  split at h
  · next hs => exact .inl ⟨hs, by simpa using h.symm⟩
  · next hs =>
    split at h
    · cases h
    · next w u hf =>
      obtain ⟨hw, rfl⟩ := (fetch_ok_iff _ _ _).mp hf
      split at h
      · next i hi => exact .inr ⟨by simpa using hs, w, i, hw, hi, h⟩
      · cases h
      · cases h

end Sys2Proof.Machine
end

