-- ==== Sys2Proof/Laws/PerInstr.lean ====
section
/-! SUPPORT. The family EncodeOpcode: bits 15 to 11 of every encoding are the instruction's opcode in the table
(spec/30_encoding.md R50, R62). -/

/-- Bits 15 to 11 of the word are the opcode of the table. -/
def Sys2Proof.Laws.EncodeOpcode.Statement (i : Sys2Proof.Instr) : Prop :=
  Sys2Proof.opcodeField (Sys2Proof.encode i) = Sys2Proof.opcodeOf i

namespace Sys2Proof.Laws

theorem EncodeOpcode.movImm (rd : Reg) (c : BitVec 8) : EncodeOpcode.Statement (.movImm rd c) :=
  opcodeField_packT1 _ _ _
theorem EncodeOpcode.movReg (rd : Reg) (rs : Reg) : EncodeOpcode.Statement (.movReg rd rs) :=
  opcodeField_packT2 _ _ _ _
theorem EncodeOpcode.lda (l : Addr) : EncodeOpcode.Statement (.lda l) :=
  opcodeField_packT3 _ _
theorem EncodeOpcode.ldr (rd : Reg) (ra : Reg) (o : BitVec 5) : EncodeOpcode.Statement (.ldr rd ra o) :=
  opcodeField_packT2 _ _ _ _
theorem EncodeOpcode.stra (l : Addr) : EncodeOpcode.Statement (.stra l) :=
  opcodeField_packT3 _ _
theorem EncodeOpcode.strr (rs : Reg) (ra : Reg) (o : BitVec 5) : EncodeOpcode.Statement (.strr rs ra o) :=
  opcodeField_packT2 _ _ _ _
theorem EncodeOpcode.push (regs : List Reg) : EncodeOpcode.Statement (.push regs) :=
  opcodeField_packCounted _ _
theorem EncodeOpcode.pop (regs : List Reg) : EncodeOpcode.Statement (.pop regs) :=
  opcodeField_packCounted _ _
theorem EncodeOpcode.addImm (rd : Reg) (ra : Reg) (c : BitVec 5) : EncodeOpcode.Statement (.addImm rd ra c) :=
  opcodeField_packT2 _ _ _ _
theorem EncodeOpcode.addReg (rd : Reg) (ra : Reg) (rb : Reg) : EncodeOpcode.Statement (.addReg rd ra rb) :=
  opcodeField_packT4 _ _ _ _ _
theorem EncodeOpcode.subImm (rd : Reg) (ra : Reg) (c : BitVec 5) : EncodeOpcode.Statement (.subImm rd ra c) :=
  opcodeField_packT2 _ _ _ _
theorem EncodeOpcode.subReg (rd : Reg) (ra : Reg) (rb : Reg) : EncodeOpcode.Statement (.subReg rd ra rb) :=
  opcodeField_packT4 _ _ _ _ _
theorem EncodeOpcode.shl (rd : Reg) (rs : Reg) (n : BitVec 4) : EncodeOpcode.Statement (.shl rd rs n) :=
  opcodeField_packT5 _ _ _ _
theorem EncodeOpcode.shr (rd : Reg) (rs : Reg) (n : BitVec 4) : EncodeOpcode.Statement (.shr rd rs n) :=
  opcodeField_packT5 _ _ _ _
theorem EncodeOpcode.and (rd : Reg) (ra : Reg) (rb : Reg) : EncodeOpcode.Statement (.and rd ra rb) :=
  opcodeField_packT4 _ _ _ _ _
theorem EncodeOpcode.or (rd : Reg) (ra : Reg) (rb : Reg) : EncodeOpcode.Statement (.or rd ra rb) :=
  opcodeField_packT4 _ _ _ _ _
theorem EncodeOpcode.not (rd : Reg) (rs : Reg) : EncodeOpcode.Statement (.not rd rs) :=
  opcodeField_packT2 _ _ _ _
theorem EncodeOpcode.jmp (l : Addr) : EncodeOpcode.Statement (.jmp l) :=
  opcodeField_packT3 _ _
theorem EncodeOpcode.bln (l : Addr) : EncodeOpcode.Statement (.bln l) :=
  opcodeField_packT3 _ _
theorem EncodeOpcode.ret : EncodeOpcode.Statement .ret :=
  opcodeField_packT3 _ _
theorem EncodeOpcode.cmpImm (ra : Reg) (c : BitVec 8) : EncodeOpcode.Statement (.cmpImm ra c) :=
  opcodeField_packT1 _ _ _
theorem EncodeOpcode.cmpReg (ra : Reg) (rb : Reg) : EncodeOpcode.Statement (.cmpReg ra rb) :=
  opcodeField_packT2 _ _ _ _
theorem EncodeOpcode.beq (l : Addr) : EncodeOpcode.Statement (.beq l) :=
  opcodeField_packT3 _ _
theorem EncodeOpcode.bne (l : Addr) : EncodeOpcode.Statement (.bne l) :=
  opcodeField_packT3 _ _
theorem EncodeOpcode.bgt (l : Addr) : EncodeOpcode.Statement (.bgt l) :=
  opcodeField_packT3 _ _
theorem EncodeOpcode.bgtu (l : Addr) : EncodeOpcode.Statement (.bgtu l) :=
  opcodeField_packT3 _ _
theorem EncodeOpcode.blt (l : Addr) : EncodeOpcode.Statement (.blt l) :=
  opcodeField_packT3 _ _
theorem EncodeOpcode.bltu (l : Addr) : EncodeOpcode.Statement (.bltu l) :=
  opcodeField_packT3 _ _
theorem EncodeOpcode.halt : EncodeOpcode.Statement .halt :=
  opcodeField_packT3 _ _

end Sys2Proof.Laws
end

