-- ==== Sys2Proof/Tests/Slice0.lean ====
section
/-! SUPPORT. Tests of the model. Words are written out from the encodings of spec/30_encoding.md R51 and R62; expected results are those of
spec/95_test_vectors.md and of the examples in the instruction rules. -/

namespace Sys2Proof.Tests

open Sys2Proof.Machine

/-! ### WellFormed refuses ill-formed terms -/

theorem test_push_without_registers_ill_formed : WellFormed (.push []) = false := by decide
theorem test_push_of_four_ill_formed : WellFormed (.push [.r0, .r1, .r2, .r3]) = false := by decide
theorem test_pop_without_registers_ill_formed : WellFormed (.pop []) = false := by decide
theorem test_pop_of_four_ill_formed : WellFormed (.pop [.r0, .r1, .r2, .r3]) = false := by decide

/-! ### Decoding, one word of every opcode, bit by bit from R51 and R62 (V-DECODE) -/

theorem test_decode_movImm : decode 0b0000000110000110#16 = .instr (.movImm .r1 0x86#8) := by decide
theorem test_decode_movReg : decode 0b0000101011100000#16 = .instr (.movReg .r2 .r7) := by decide
theorem test_decode_lda : decode 0b0001000001000000#16 = .instr (.lda 0x040#11) := by decide
theorem test_decode_ldr : decode 0b0001100010011101#16 = .instr (.ldr .r0 .r4 0x1D#5) := by decide
theorem test_decode_stra : decode 0b0010000001000001#16 = .instr (.stra 0x041#11) := by decide
theorem test_decode_strr : decode 0b0010100101100010#16 = .instr (.strr .r1 .r3 2#5) := by decide
theorem test_decode_push : decode 0b0011000000100010#16 = .instr (.push [.r0, .r1]) := by decide
theorem test_decode_pop : decode 0b0011100100000010#16 = .instr (.pop [.r1, .r0]) := by decide
theorem test_decode_addImm : decode 0b0100000100100101#16 = .instr (.addImm .r1 .r1 5#5) := by decide
theorem test_decode_addReg : decode 0b0100101000000100#16 = .instr (.addReg .r2 .r0 .r1) := by decide
theorem test_decode_subImm : decode 0b0101000000000001#16 = .instr (.subImm .r0 .r0 1#5) := by decide
theorem test_decode_subReg : decode 0b0101101100101000#16 = .instr (.subReg .r3 .r1 .r2) := by decide
theorem test_decode_shl : decode 0b0110000100000110#16 = .instr (.shl .r1 .r0 3#4) := by decide
theorem test_decode_shr : decode 0b0110100100001000#16 = .instr (.shr .r1 .r0 4#4) := by decide
theorem test_decode_and : decode 0b0111000000101000#16 = .instr (.and .r0 .r1 .r2) := by decide
theorem test_decode_or : decode 0b0111100000101000#16 = .instr (.or .r0 .r1 .r2) := by decide
theorem test_decode_not : decode 0b1000000000100000#16 = .instr (.not .r0 .r1) := by decide
theorem test_decode_jmp : decode 0b1000100100100011#16 = .instr (.jmp 0x123#11) := by decide
theorem test_decode_bln : decode 0b1001001000000000#16 = .instr (.bln 0x200#11) := by decide
theorem test_decode_ret : decode 0b1001100000000000#16 = .instr (.ret) := by decide
theorem test_decode_cmpImm : decode 0b1010000000000000#16 = .instr (.cmpImm .r0 0#8) := by decide
theorem test_decode_cmpReg : decode 0b1010100000100000#16 = .instr (.cmpReg .r0 .r1) := by decide
theorem test_decode_beq : decode 0b1011000000010000#16 = .instr (.beq 0x010#11) := by decide
theorem test_decode_bne : decode 0b1011100000000100#16 = .instr (.bne 0x004#11) := by decide
theorem test_decode_bgt : decode 0b1100000000010000#16 = .instr (.bgt 0x010#11) := by decide
theorem test_decode_bgtu : decode 0b1100100000010000#16 = .instr (.bgtu 0x010#11) := by decide
theorem test_decode_blt : decode 0b1101000000010000#16 = .instr (.blt 0x010#11) := by decide
theorem test_decode_bltu : decode 0b1101100000010000#16 = .instr (.bltu 0x010#11) := by decide
theorem test_decode_halt : decode 0b1110000000000000#16 = .instr (.halt) := by decide

/-- All three registers of a T4N word (PUSH R2 R3 R4, program P4). -/
theorem test_decode_push_three : decode 0b0011001001110011#16 = .instr (.push [.r2, .r3, .r4]) := by decide
/-- The register fields beyond the count are ignored (V-STACK). -/
theorem test_decode_push_ignores_fields_beyond_count : decode 0x3669#16 = .instr (.push [.r6]) := by decide
/-- The shift count is bits 4:1, bit 0 ignored (V-SHIFT). -/
theorem test_decode_shl_ignores_bit_zero : decode 0x6103#16 = .instr (.shl .r1 .r0 1#4) := by decide
theorem test_decode_ret_unused_bits : decode 0x9FFF#16 = .instr .ret := by decide
theorem test_decode_opcode_29 : decode 0xE800#16 = .illegalOpcode 0xE800#16 := by decide
theorem test_decode_all_ones : decode 0xFFFF#16 = .illegalOpcode 0xFFFF#16 := by decide
theorem test_decode_push_count_zero : decode 0x37FC#16 = .reservedEncoding 0x37FC#16 := by decide
theorem test_decode_pop_count_zero : decode 0x3800#16 = .reservedEncoding 0x3800#16 := by decide
theorem test_decode_table_word : decodeTableWord 16 0x4A04 = some (.addReg .r2 .r0 .r1) := by decide
theorem test_decode_table_word_rejected : decodeTableWord 16 0xF000 = none := by decide

/-! ### One instruction on a small state -/

/-- A small state: registers and memory as given, pc as after the fetch of an instruction at 0x020, everything else as reset leaves it. -/
def small (regs : Regs) (mem : Memory) : State := { State.reset with regs := regs, mem := mem, pc := 0x021#11 }

/-- The same with the given parameters. -/
def smallWith (p : Config.Params) (regs : Regs) (mem : Memory) : State := { small regs mem with params := p }

/-- The same with the given flags. -/
def flagged (f : Flags) : State := (small ⟨0, 0, 0, 0, 0, 0, 0, 0⟩ []).setFlags f

/-- A register of the next state. -/
def regAfter (r : Reg) (o : Host.Outcome State Fault Refusal) : Option Word :=
  match o with
  | .next s => some (s.getReg r)
  | .fault _ => none
  | .refused _ => none

/-- A word of the next state's memory. -/
def wordAfter (a : Addr) (o : Host.Outcome State Fault Refusal) : Option Word :=
  match o with
  | .next s => s.wordAt a
  | .fault _ => none
  | .refused _ => none

/-- The flags of the next state. -/
def flagsAfter (o : Host.Outcome State Fault Refusal) : Option Flags :=
  match o with
  | .next s => some s.flags
  | .fault _ => none
  | .refused _ => none

/-- The pc of the next state. -/
def pcAfter (o : Host.Outcome State Fault Refusal) : Option Addr :=
  match o with
  | .next s => some s.pc
  | .fault _ => none
  | .refused _ => none

/-- R80. -/
theorem test_mov_imm_sign_extends : regAfter .r1 (exec (.movImm .r1 0x86#8) (small ⟨0, 0, 0, 0, 0, 0, 0, 0⟩ [])) = some 0xFF86 := by decide

/-- V-MOV. -/
theorem test_mov_imm_seven_exact : regAfter .r7 (exec (.movImm .r7 0xFF#8) (small ⟨0, 0, 0, 0, 0, 0, 0, 0⟩ [])) = some 0xFFFF := by decide

/-- V-MOV. -/
theorem test_mov_reg_copies_r7 : regAfter .r2 (exec (.movReg .r2 .r7) (small ⟨0, 0, 0, 0, 0, 0, 0, 0xBEEF⟩ [])) = some 0xBEEF := by decide

/-- V-MEM. -/
theorem test_lda_loads : regAfter .r7 (exec (.lda 0x7FF#11) (small ⟨0, 0, 0, 0, 0, 0, 0, 0⟩ [(0x7FF, 0x8001)])) = some 0x8001 := by decide

/-- R92. -/
theorem test_ldr_negative_offset : regAfter .r0 (exec (.ldr .r0 .r4 0x1D#5) (small ⟨0, 0, 0, 0, 0x0103, 0, 0, 0⟩ [(0x100, 0x0042)])) = some 0x0042 := by decide

/-- V-MEM, sum 0xFFFF. -/
theorem test_ldr_wraps : regAfter .r2 (exec (.ldr .r2 .r3 0x1F#5) (small ⟨0, 0, 0, 0, 0, 0, 0, 0⟩ [(0x7FF, 0x5555)])) = some 0x5555 := by decide

/-- R93. -/
theorem test_stra_stores : wordAfter 0x041#11 (exec (.stra 0x041#11) (small ⟨0, 0, 0, 0, 0, 0, 0, 0x00FF⟩ [(0x040, 1), (0x042, 2)])) = some 0x00FF := by decide

/-- R94. -/
theorem test_strr_stores : wordAfter 0x202#11 (exec (.strr .r1 .r3 2#5) (small ⟨0, 0x1234, 0, 0x0200, 0, 0, 0, 0⟩ [])) = some 0x1234 := by decide

/-- V-MEM, sum 0x0800. -/
theorem test_strr_wraps : wordAfter 0x000#11 (exec (.strr .r0 .r1 1#5) (small ⟨9, 0x07FF, 0, 0, 0, 0, 0, 0⟩ [(0x000, 3)])) = some 0x0009 := by decide

/-- R96. -/
theorem test_push_second_word : wordAfter 0x0FE#11 (exec (.push [.r0, .r1]) (small ⟨0xAAAA, 0xBBBB, 0, 0, 0, 0x0100, 0, 0⟩ [])) = some 0xBBBB := by decide

/-- V-STACK. -/
theorem test_push_moves_sp : regAfter .r5 (exec (.push [.r0, .r1, .r2]) (small ⟨0, 0, 0, 0, 0, 0x0100, 0, 0⟩ [])) = some 0x00FD := by decide

/-- R97. -/
theorem test_pop_second_register : regAfter .r0 (exec (.pop [.r1, .r0]) (small ⟨0, 0, 0, 0, 0, 0x00FE, 0, 0⟩ [(0x0FE, 0xBBBB), (0x0FF, 0xAAAA)])) = some 0xAAAA := by decide

/-- V-STACK. -/
theorem test_pop_moves_sp : regAfter .r5 (exec (.pop [.r3]) (small ⟨0, 0, 0, 0, 0, 0xFFFF, 0, 0⟩ [(0x7FF, 0x0099)])) = some 0x0000 := by decide

/-- V-ADD. -/
theorem test_add_imm : regAfter .r1 (exec (.addImm .r1 .r1 15#5) (small ⟨0, 0xFFF1, 0, 0, 0, 0, 0, 0⟩ [])) = some 0x0000 := by decide

/-- V-ADD. -/
theorem test_add_imm_negative : regAfter .r0 (exec (.addImm .r0 .r1 0x10#5) (small ⟨0, 0x0010, 0, 0, 0, 0, 0, 0⟩ [])) = some 0x0000 := by decide

/-- V-ADD. -/
theorem test_add_reg_same_source_and_destination : regAfter .r0 (exec (.addReg .r0 .r0 .r0) (small ⟨0x8001, 0, 0, 0, 0, 0, 0, 0⟩ [])) = some 0x0002 := by decide

/-- V-ADD. -/
theorem test_add_reg_r7_second : regAfter .r0 (exec (.addReg .r0 .r1 .r7) (small ⟨0, 1, 0, 0, 0, 0, 0, 0x00FF⟩ [])) = some 0x0100 := by decide

/-- V-SUB. -/
theorem test_sub_imm_negative : regAfter .r0 (exec (.subImm .r0 .r1 0x1F#5) (small ⟨0, 0xFFFF, 0, 0, 0, 0, 0, 0⟩ [])) = some 0x0000 := by decide

/-- R116. -/
theorem test_sub_reg_first_minus_second : regAfter .r3 (exec (.subReg .r3 .r1 .r2) (small ⟨0, 5, 7, 0, 0, 0, 0, 0⟩ [])) = some 0xFFFE := by decide

/-- R117. -/
theorem test_shl : regAfter .r1 (exec (.shl .r1 .r0 3#4) (small ⟨0x1234, 0, 0, 0, 0, 0, 0, 0⟩ [])) = some 0x91A0 := by decide

/-- V-SHIFT. -/
theorem test_shl_fifteen : regAfter .r1 (exec (.shl .r1 .r0 15#4) (small ⟨0x1235, 0, 0, 0, 0, 0, 0, 0⟩ [])) = some 0x8000 := by decide

/-- R118. -/
theorem test_shr : regAfter .r1 (exec (.shr .r1 .r0 4#4) (small ⟨0x8421, 0, 0, 0, 0, 0, 0, 0⟩ [])) = some 0x0842 := by decide

/-- V-SHIFT. -/
theorem test_shr_zero_fill : regAfter .r0 (exec (.shr .r0 .r0 1#4) (small ⟨0xFFFF, 0, 0, 0, 0, 0, 0, 0⟩ [])) = some 0x7FFF := by decide

/-- R119. -/
theorem test_and : regAfter .r0 (exec (.and .r0 .r1 .r2) (small ⟨0, 0xF0F0, 0x3C3C, 0, 0, 0, 0, 0⟩ [])) = some 0x3030 := by decide

/-- R120. -/
theorem test_or : regAfter .r0 (exec (.or .r0 .r1 .r2) (small ⟨0, 0xF0F0, 0x3C3C, 0, 0, 0, 0, 0⟩ [])) = some 0xFCFC := by decide

/-- V-LOGIC. -/
theorem test_not : regAfter .r2 (exec (.not .r2 .r7) (small ⟨0, 0, 0, 0, 0, 0, 0, 0x8000⟩ [])) = some 0x7FFF := by decide

/-- R141. -/
theorem test_jmp : pcAfter (exec (.jmp 0x123#11) (flagged ⟨false, false, false, false⟩)) = some 0x123 := by decide

/-- R142, at 0x020. -/
theorem test_bln_links : regAfter .r6 (exec (.bln 0x200#11) (flagged ⟨false, false, false, false⟩)) = some 0x0021 := by decide

/-- V-JUMP: the upper bits of R6 are ignored. -/
theorem test_ret : pcAfter (exec .ret (small ⟨0, 0, 0, 0, 0, 0, 0xF811, 0⟩ [])) = some 0x011 := by decide

/-- V-CMP: 0x8000 against 127. -/
theorem test_cmp_imm_overflow :
    flagsAfter (exec (.cmpImm .r0 0x7F#8) (small ⟨0x8000, 0, 0, 0, 0, 0, 0, 0⟩ [])) = some ⟨false, false, true, true⟩ := by decide

/-- V-CMP: R7 as the second operand is read exactly. -/
theorem test_cmp_reg_r7_second :
    flagsAfter (exec (.cmpReg .r0 .r7) (small ⟨1, 0, 0, 0, 0, 0, 0, 1⟩ [])) = some ⟨true, false, false, true⟩ := by decide

theorem test_beq_taken : pcAfter (exec (.beq 0x010#11) (flagged ⟨true, false, false, false⟩)) = some 0x010 := by decide
theorem test_beq_not_taken : pcAfter (exec (.beq 0x010#11) (flagged ⟨false, true, true, true⟩)) = some 0x021 := by decide
theorem test_bne_taken : pcAfter (exec (.bne 0x004#11) (flagged ⟨false, true, true, true⟩)) = some 0x004 := by decide
theorem test_bne_not_taken : pcAfter (exec (.bne 0x004#11) (flagged ⟨true, false, false, false⟩)) = some 0x021 := by decide
/-- C6: on equality BGT is taken by default. -/
theorem test_bgt_taken_on_equality : pcAfter (exec (.bgt 0x010#11) (flagged ⟨true, false, false, true⟩)) = some 0x010 := by decide
theorem test_bgt_not_taken : pcAfter (exec (.bgt 0x010#11) (flagged ⟨false, true, false, true⟩)) = some 0x021 := by decide
theorem test_bgtu_taken : pcAfter (exec (.bgtu 0x010#11) (flagged ⟨false, true, true, true⟩)) = some 0x010 := by decide
theorem test_bgtu_not_taken_on_equality : pcAfter (exec (.bgtu 0x010#11) (flagged ⟨true, false, false, true⟩)) = some 0x021 := by decide
theorem test_blt_taken : pcAfter (exec (.blt 0x010#11) (flagged ⟨false, false, true, true⟩)) = some 0x010 := by decide
theorem test_blt_not_taken : pcAfter (exec (.blt 0x010#11) (flagged ⟨false, true, true, true⟩)) = some 0x021 := by decide
theorem test_bltu_taken : pcAfter (exec (.bltu 0x7FF#11) (flagged ⟨true, true, true, false⟩)) = some 0x7FF := by decide
theorem test_bltu_not_taken : pcAfter (exec (.bltu 0x010#11) (flagged ⟨false, false, false, true⟩)) = some 0x021 := by decide

/-- HALT keeps pc and sets the run state; a halted machine steps to itself (R153, R19). -/
theorem test_halt : exec .halt State.reset = .next { State.reset with halted := true } := rfl
theorem test_halted_step : step { State.reset with halted := true } = .next { State.reset with halted := true } := rfl

/-! ### The step -/

/-- A word placed where the machine fetches is the next instruction, and pc moves past it. -/
theorem test_step_runs_the_placed_word : regAfter .r1 (step (State.reset.withFetchWord 16 0x0186)) = some 0xFF86 := by decide
theorem test_step_advances_pc : pcAfter (step (State.reset.withFetchWord 16 0x0186)) = some 0x001 := by decide
/-- V-JUMP: sequential wrap at 0x7FF. -/
theorem test_step_wraps_pc : pcAfter (step ((State.reset.setPc 0x7FF#11).withFetchWord 16 0x0001)) = some 0x000 := by decide
/-- Right after reset no word has a value, so the fetch stops (R34). -/
theorem test_reset_fetch_faults : step State.reset = .fault (.unsetRead 0 State.reset) := rfl
/-- LDA of its own address loads its own encoding (V-MEM). -/
theorem test_lda_of_itself : regAfter .r7 (step ((State.reset.setPc 0x020#11).withFetchWord 16 0x1020)) = some 0x1020 := by decide
/-- A launch places the image's first word for an address. -/
theorem test_launch : (State.launch defaultParams [(0x001#11, 0x0005#16), (0x000#11, 0xE000#16), (0x001#11, 0x0006#16)]).mem =
    [(0, 0xE000#16), (1, 0x0005#16)] := by decide

/-! ### Witnesses: for each statement with hypotheses, a state and operands that meet them -/

/-- Parameters that differ from the defaults where a clause asks for it. -/
def otherParams : Config.Params :=
  { defaultParams with imm8Signed := false, imm5Signed := false, addrHigh := .refuse, flagsOnAlu := .update, bgtExcludesEqual := true,
                       mbrModel := .transparent }

/-- Ready to fetch `w` at 0x021. -/
def fetching (w : Word) : State := small ⟨0, 0, 0, 0, 0, 0, 0, 0⟩ [(0x021, w)]

theorem test_witness_DecodeOfEncode : WellFormed (.push [.r0]) = true ∧ WellFormed (.pop [.r0, .r1, .r2]) = true := by decide

theorem test_witness_EncodeOfDecode_and_UnusedBits :
    decode 0x4A07#16 = .instr (.addReg .r2 .r0 .r1) ∧ decode 0x0186#16 = .instr (.movImm .r1 0x86#8) ∧ WellFormed .halt = true := by decide

/-- Opcodes 28 and 29, counts 0 and 1: where the clauses meet. -/
theorem test_witness_EveryWordDecodes :
    29 ≤ (opcodeField 0xE800#16).toNat ∧ (opcodeField 0xE7FF#16).toNat < 29 ∧
    opcodeField 0x3000#16 = 6 ∧ countField 0x3000#16 = 0 ∧ opcodeField 0x3FFC#16 = 7 ∧ countField 0x3FFC#16 = 0 ∧
    opcodeField 0x3001#16 = 6 ∧ countField 0x3001#16 ≠ 0 := by decide

theorem test_witness_StepRuns :
    (fetching 0x0186).halted = false ∧ (fetching 0x0186).wordAt (fetching 0x0186).pc = some 0x0186 ∧
    decode 0x0186#16 = .instr (.movImm .r1 0x86#8) := by decide

theorem test_witness_UnassignedOpcodes :
    (fetching 0xE800).halted = false ∧ (fetching 0xE800).wordAt (fetching 0xE800).pc = some 0xE800 ∧ 0xE800 ≤ (0xE800#16).toNat ∧
    (fetching 0xFFFF).wordAt (fetching 0xFFFF).pc = some 0xFFFF ∧ 0xE800 ≤ (0xFFFF#16).toNat := by decide

theorem test_witness_ZeroCount :
    (fetching 0x37FC).halted = false ∧ (fetching 0x37FC).wordAt (fetching 0x37FC).pc = some 0x37FC ∧ 0x37FC#16 &&& 0xF803 = 0x3000 ∧
    (fetching 0x3800).wordAt (fetching 0x3800).pc = some 0x3800 ∧ 0x3800#16 &&& 0xF803 = 0x3800 := by decide

theorem test_witness_FetchOfUnset : State.reset.halted = false ∧ State.reset.wordAt State.reset.pc = none := by decide

theorem test_witness_Halted : State.reset.halt.halted = true := by decide

/-- Of the statements about every instruction that goes on: one of each kind goes on from one state. -/
theorem test_witness_exec_next :
    (∃ t, exec .halt State.reset = .next t) ∧ (∃ t, exec (.jmp 5#11) State.reset = .next t) ∧ (∃ t, exec .ret State.reset = .next t) ∧
    (∃ t, exec (.movImm .r0 1#8) State.reset = .next t) ∧ (∃ t, exec (.addReg .r0 .r1 .r2) State.reset = .next t) ∧
    (∃ t, exec (.cmpReg .r0 .r1) State.reset = .next t) ∧ (∃ t, exec (.lda 0x021#11) (fetching 0x0001) = .next t) ∧
    (∃ t, exec (.stra 0x021#11) (fetching 0x0001) = .next t) :=
  ⟨⟨_, rfl⟩, ⟨_, rfl⟩, ⟨_, rfl⟩, ⟨_, rfl⟩, ⟨_, rfl⟩, ⟨_, rfl⟩, ⟨_, rfl⟩, ⟨_, rfl⟩⟩

/-- The clauses of OnlyComparisonsWriteFlags at the ends of the opcode ranges. -/
theorem test_witness_OnlyComparisonsWriteFlags :
    State.reset.params.flagsOnAlu = .preserve ∧ (opcodeOf (.addImm .r0 .r0 0#5)).toNat = 8 ∧ (opcodeOf (.not .r0 .r0)).toNat = 16 ∧
    (opcodeOf (.pop [.r0])).toNat < 8 ∧ 16 < (opcodeOf (.jmp 0#11)).toNat := by decide

theorem test_witness_OnlyStoresWriteMemory : (opcodeOf (.movImm .r0 1#8)).toNat ∉ [4, 5, 6] := by decide

/-- Two different states that differ in IR, MAR and ACC alone, both going on; and two that fault. -/
theorem test_witness_InternalRegistersCannotBeObserved :
    (fetching 0x0186).visible = ((((fetching 0x0186).setIr 1).setMar 2).setAcc 3).visible ∧
    (fetching 0x0186) ≠ ((((fetching 0x0186).setIr 1).setMar 2).setAcc 3) ∧
    (∃ t, step (fetching 0x0186) = .next t) ∧ (∃ f, step (fetching 0xE800) = .fault f) :=
  ⟨by decide, by decide, ⟨_, rfl⟩, ⟨_, rfl⟩⟩

theorem test_witness_StepKeepsTheInvariant : (fetching 0x2041).Inv ∧ ∃ t, step (fetching 0x2041) = .next t := ⟨rfl, ⟨_, rfl⟩⟩

theorem test_witness_MemoryPrimitives :
    memRead 0x021#11 (fetching 7) = .ok (7, (fetching 7).setMar 0x021#11) ∧ (fetching 7).wordAt 0x022#11 = none := ⟨rfl, by decide⟩

/-- ADDR_HIGH: both settings, at 0x07FF and 0x0800. -/
theorem test_witness_EffectiveAddress :
    defaultParams.addrHigh = .ignore ∧ otherParams.addrHigh = .refuse ∧ (0x07FF#16).toNat < 2048 ∧ 2048 ≤ (0x0800#16).toNat ∧
    effAddr otherParams (0x0800#16) = none ∧ effAddr otherParams (0x07FF#16) = some 0x7FF ∧
    effAddr (smallWith otherParams ⟨0, 0x0800, 0, 0, 0, 0, 0, 0⟩ []).params
      (busValue .b .r1 (smallWith otherParams ⟨0, 0x0800, 0, 0, 0, 0, 0, 0⟩ []) + offset 0#5) = none := by decide

theorem test_witness_ConstantsWiden :
    defaultParams.imm8Signed = true ∧ otherParams.imm8Signed = false ∧ defaultParams.imm5Signed = true ∧
    otherParams.imm5Signed = false ∧ (15#5).toNat ≤ 15 := by decide

/-- STRA 0x022 at 0x021, R7 holding HALT. -/
theorem test_witness_StoreIsSeen :
    (small ⟨0, 0, 0, 0, 0, 0, 0, 0xE000⟩ [(0x021, 0x2022)]).halted = false ∧
    (small ⟨0, 0, 0, 0, 0, 0, 0, 0xE000⟩ [(0x021, 0x2022)]).wordAt 0x021 = some 0x2022 ∧
    decode 0x2022#16 = .instr (.stra (0x021 + 1)) ∧ decode 0xE000#16 = .instr .halt := by decide

/-- STRR R1 &R3 #2 at 0x021 with R3 = 0x0020, R1 holding HALT. -/
theorem test_witness_StoreIsSeen_Strr :
    decode 0x2962#16 = .instr (.strr .r1 .r3 2#5) ∧
    effAddr defaultParams (busValue .b .r3 (small ⟨0, 0xE000, 0, 0x0020, 0, 0, 0, 0⟩ [(0x021, 0x2962)]) + offset 2#5) =
      some (0x021 + 1) ∧ Reg.r1 ∉ latched defaultParams .b := by decide

/-- PUSH R0 R1 at 0x021: with R5 = 0x0023 the first iteration stores at 0x022, with R5 = 0x0024 the last. -/
theorem test_witness_StoreIsSeen_Push :
    decode 0x3022#16 = .instr (.push [.r0, .r1]) ∧
    effAddr defaultParams (pushAt defaultParams (0x0023 + BitVec.ofNat 16 0 * pushDelta defaultParams)) = some (0x021 + 1) ∧
    effAddr defaultParams (pushAt defaultParams (0x0023 + BitVec.ofNat 16 1 * pushDelta defaultParams)) = some 0x021 ∧
    effAddr defaultParams (pushAt defaultParams (0x0024 + BitVec.ofNat 16 0 * pushDelta defaultParams)) = some 0x023 ∧
    effAddr defaultParams (pushAt defaultParams (0x0024 + BitVec.ofNat 16 1 * pushDelta defaultParams)) = some (0x021 + 1) := by
  decide

/-- The settings that select the clauses on the widening, the flags and the operand latch, and the words of the encoding clauses. -/
theorem test_witness_settings :
    State.reset.params.flagsOnAlu = .preserve ∧ otherParams.flagsOnAlu = .update ∧ State.reset.params.imm8Signed = true ∧
    otherParams.mbrModel = .transparent ∧ Reg.r7 ∈ latched defaultParams .b ∧ Reg.r7 ∉ latched otherParams .b ∧
    Reg.r1 ∉ latched defaultParams .a := by decide

theorem test_witness_opcode_fields :
    opcodeField 0x0186#16 = 0 ∧ opcodeField 0x1040#16 = 2 ∧ opcodeField 0x189D#16 = 3 ∧ opcodeField 0x2962#16 = 5 ∧ opcodeField 0x4125#16 = 8 ∧ opcodeField 0x4A04#16 = 9 ∧
    opcodeField 0x5001#16 = 10 ∧ opcodeField 0x5B28#16 = 11 ∧ opcodeField 0x6106#16 = 12 ∧ opcodeField 0x6908#16 = 13 ∧
    opcodeField 0x7028#16 = 14 ∧ opcodeField 0x7828#16 = 15 ∧ opcodeField 0x8020#16 = 16 ∧ opcodeField 0x8923#16 = 17 ∧
    opcodeField 0x9200#16 = 18 ∧ opcodeField 0xA000#16 = 20 ∧ opcodeField 0xA820#16 = 21 ∧ opcodeField 0xB010#16 = 22 ∧
    opcodeField 0xB804#16 = 23 ∧ opcodeField 0xC010#16 = 24 ∧ opcodeField 0xC810#16 = 25 ∧ opcodeField 0xD010#16 = 26 ∧
    opcodeField 0xD810#16 = 27 ∧ opcodeField 0xE000#16 = 28 := by decide

theorem test_witness_Lda :
    (fetching 7).wordAt 0x021#11 = some 7 ∧ (fetching 7).wordAt 0x7FF#11 = none := by decide

/-- LDR and STRR through R1 = 0x0021 with offset 0 (a word with a value) and 1 (none). -/
theorem test_witness_Ldr_Strr :
    effAddr (small ⟨0, 0x0021, 0, 0, 0, 0, 0, 0⟩ [(0x021, 7)]).params
      (busValue .b .r1 (small ⟨0, 0x0021, 0, 0, 0, 0, 0, 0⟩ [(0x021, 7)]) + offset 0#5) = some 0x021 ∧
    (small ⟨0, 0x0021, 0, 0, 0, 0, 0, 0⟩ [(0x021, 7)]).wordAt 0x021 = some 7 ∧
    effAddr (small ⟨0, 0x0021, 0, 0, 0, 0, 0, 0⟩ [(0x021, 7)]).params
      (busValue .b .r1 (small ⟨0, 0x0021, 0, 0, 0, 0, 0, 0⟩ [(0x021, 7)]) + offset 1#5) = some 0x022 ∧
    (small ⟨0, 0x0021, 0, 0, 0, 0, 0, 0⟩ [(0x021, 7)]).wordAt 0x022 = none := by decide

/-- PUSH R0 R5 from R5 = 0x0000: both addresses are accepted. -/
theorem test_witness_Push :
    WellFormed (.push [.r0, .r5]) = true ∧ ∀ j, j < [Reg.r0, .r5].length →
      (effAddr State.reset.params
        (pushAt State.reset.params (State.reset.getReg .r5 + BitVec.ofNat 16 j * pushDelta State.reset.params))).isSome = true := by
  refine ⟨by decide, ?_⟩
  decide

/-- The stack of the POP witnesses: R5 = 0x0FE over two words, the first of them an address with a word of its own. -/
def stacked : State := small ⟨0, 0, 0, 0, 0, 0x00FE, 0, 0⟩ [(0x080, 0x1234), (0x0FE, 0x0080), (0x0FF, 0xAAAA)]

/-- POP R1 R0: R5 goes 0x0FE, 0x0FF, 0x100, and the words are read in order. -/
theorem test_witness_Pop :
    WellFormed (.pop [.r1, .r0]) = true ∧ [0x0080#16, 0xAAAA#16].length = [Reg.r1, .r0].length ∧
    [0x00FE#16, 0x00FF#16, 0x0100#16].length = [Reg.r1, .r0].length + 1 ∧
    [0x00FE#16, 0x00FF#16, 0x0100#16][0]? = some (stacked.getReg .r5) ∧
    popSequence stacked.params [.r1, .r0] = [.r1, .r0] ∧
    ((effAddr stacked.params (popAt stacked.params 0x00FE)).bind stacked.wordAt = some 0x0080 ∧
      0x00FE - pushDelta stacked.params = 0x00FF) ∧
    ((effAddr stacked.params (popAt stacked.params 0x00FF)).bind stacked.wordAt = some 0xAAAA ∧
      0x00FF - pushDelta stacked.params = 0x0100) := by decide

/-- POP R5, and POP R5 R0 whose second word is at the loaded address. -/
theorem test_witness_PopOfStackPointer :
    stacked.params.stack = defaultStack ∧ effAddr stacked.params (stacked.getReg .r5) = some 0x0FE ∧
    stacked.wordAt 0x0FE = some 0x0080 ∧ effAddr stacked.params 0x0080 = some 0x080 ∧ stacked.wordAt 0x080 = some 0x1234 := by decide

theorem test_witness_DefaultPush_and_Mirror :
    State.reset.params.stack = defaultStack ∧ State.reset.params.addrHigh = .ignore ∧ Reg.r0 ∉ [Reg.r5, .r7] ∧
    WellFormed (.push [.r0, .r1, .r2]) = true ∧ Reg.r5 ∉ [Reg.r0, .r1, .r2] ∧ Reg.r7 ∉ [Reg.r0, .r1, .r2] := by decide

theorem test_witness_Mirror_push_goes_on : ∃ t, exec (.push [.r0, .r1, .r2]) State.reset = .next t := ⟨_, rfl⟩

/-- ADDR_HIGH = refuse, R5 = 0x0001: PUSH R0 R1 stops in its second iteration, after the word at 0x000. R5 = 0x0000: in its first. -/
theorem test_witness_PushStops :
    WellFormed (.push [.r0, .r1]) = true ∧
    effAddr otherParams (pushAt otherParams (0x0001 + BitVec.ofNat 16 0 * pushDelta otherParams)) = some 0x000 ∧
    effAddr otherParams (pushAt otherParams (0x0001 + BitVec.ofNat 16 1 * pushDelta otherParams)) = none ∧
    effAddr otherParams (pushAt otherParams (0x0000 + BitVec.ofNat 16 0 * pushDelta otherParams)) = none := by decide

/-- POP R1 R0 R2 from two words: the third address, 0x100, has no word. POP R1 R0 under ADDR_HIGH = refuse from R5 = 0x07FF: the second
address, 0x0800, is refused. POP R0 at reset: the first address has no word. -/
theorem test_witness_PopStops :
    WellFormed (.pop [.r1, .r0, .r2]) = true ∧ [0x00FE#16, 0x00FF#16, 0x0100#16][0]? = some (stacked.getReg .r5) ∧
    (effAddr stacked.params (popAt stacked.params 0x0100)).bind stacked.wordAt = none ∧
    (effAddr otherParams (popAt otherParams 0x07FF)).bind
      (smallWith otherParams ⟨0, 0, 0, 0, 0, 0x07FF, 0, 0⟩ [(0x7FF, 9)]).wordAt = some 9 ∧
    0x07FF - pushDelta otherParams = 0x0800 ∧ effAddr otherParams (popAt otherParams 0x0800) = none ∧
    (effAddr State.reset.params (popAt State.reset.params (State.reset.getReg .r5))).bind State.reset.wordAt = none := by decide

/-- An instruction of no class, and ADD under the transparent latch, neither naming R7 as the destination. -/
theorem test_witness_NoClassKeepsR7 :
    (opcodeOf (.movReg .r0 .r7)).toNat ∈ [0, 1, 4, 16, 17, 18, 19, 22, 23, 24, 25, 26, 27, 28] ∧
    (smallWith otherParams ⟨0, 0, 0, 0, 0, 0, 0, 5⟩ []).params.mbrModel = .transparent ∧
    (opcodeOf (.addReg .r0 .r7 .r1)).toNat ∉ [2, 7] ∧
    regAfter .r7 (exec (.addReg .r0 .r7 .r1) (smallWith otherParams ⟨0, 0, 0, 0, 0, 0, 0, 5⟩ [])) = some 5 := by decide

/-- Flags as a comparison of 5 with 3 leaves them, under both values of BGT_EXCLUDES_EQUAL; and of equal values. -/
theorem test_witness_branches :
    (flagged ⟨false, false, false, true⟩).flags = cmpFlags 5 3 ∧ (flagged ⟨true, false, false, true⟩).flags = cmpFlags 5 5 ∧
    State.reset.params.bgtExcludesEqual = false ∧ otherParams.bgtExcludesEqual = true := by decide

theorem test_witness_CompareThenBranch :
    Reg.r0 ∉ latched State.reset.params .a ∧ State.reset.params.bgtExcludesEqual = false ∧
    ∃ t, exec (.cmpReg .r0 .r1) State.reset = .next t := ⟨by decide, rfl, ⟨_, rfl⟩⟩

/-- BLN 0x000 at 0x7FF: the link wraps. -/
theorem test_witness_Bln :
    ((State.reset.setPc 0x7FF#11).withFetchWord 16 0x9000).halted = false ∧
    ((State.reset.setPc 0x7FF#11).withFetchWord 16 0x9000).wordAt 0x7FF#11 = some 0x9000 ∧
    decode 0x9000#16 = .instr (.bln 0x000#11) := by decide

theorem test_witness_RetReturns :
    ∃ t, exec (.bln 0x200#11) State.reset = .next t ∧ (t.setPc 0x300#11).getReg .r6 = t.getReg .r6 := ⟨_, rfl, rfl⟩

end Sys2Proof.Tests
end

section
/-! The worked encodings (spec/30_encoding.md R71). The decoder undoes the encoder on the six instructions for all their operands, by the
field laws of each type; so a worked word is only evaluated once, as what the encoder writes. -/

namespace Sys2Proof

/-! ### Decoding undoes encoding, for the instruction R71 picks of each type (R70) -/

theorem decode_encode_movImm (rd : Reg) (c : BitVec 8) : decode (encode (.movImm rd c)) = .instr (.movImm rd c) := by
  simp [encode, decode]

theorem decode_encode_strr (rs ra : Reg) (o : BitVec 5) : decode (encode (.strr rs ra o)) = .instr (.strr rs ra o) := by
  simp [encode, decode]

theorem decode_encode_jmp (l : Addr) : decode (encode (.jmp l)) = .instr (.jmp l) := by
  simp [encode, decode]

theorem decode_encode_addReg (rd ra rb : Reg) : decode (encode (.addReg rd ra rb)) = .instr (.addReg rd ra rb) := by
  simp [encode, decode]

theorem decode_encode_shl (rd rs : Reg) (n : BitVec 4) : decode (encode (.shl rd rs n)) = .instr (.shl rd rs n) := by
  simp [encode, decode]

/-- The count written by the encoder, 2, selects the first two register fields (R60). -/
theorem decode_encode_push_pair (ra rb : Reg) : decode (encode (.push [ra, rb])) = .instr (.push [ra, rb]) := by
  simp [encode, decode, packCounted, decodeCounted, countedRegs]

/-! ### The six words -/

/-- Where decoding undoes encoding, the word the encoder writes settles both directions. -/
theorem decode_and_encode_of_encode_eq {w : Word} {i : Instr} (round : decode (encode i) = .instr i) (written : encode i = w) :
    decode w = .instr i ∧ encode i = w :=
  ⟨written ▸ round, written⟩

/-- Settles O1: each word is computed once, as the encoder's, and its decoding is the round trip of its instruction. -/
theorem workedEncodingsDecodeAndEncode : Obligations.WorkedEncodingsDecodeAndEncode :=
  ⟨decode_and_encode_of_encode_eq (decode_encode_movImm .r1 0x86) (by decide),
   decode_and_encode_of_encode_eq (decode_encode_strr .r1 .r3 2) (by decide),
   decode_and_encode_of_encode_eq (decode_encode_jmp 0x123) (by decide),
   decode_and_encode_of_encode_eq (decode_encode_addReg .r2 .r0 .r1) (by decide),
   decode_and_encode_of_encode_eq (decode_encode_shl .r1 .r0 3) (by decide),
   decode_and_encode_of_encode_eq (decode_encode_push_pair .r0 .r1) (by decide)⟩

end Sys2Proof
end

section
/-! MOV immediate (spec/40_data_movement.md R80): one write to the destination, of the constant widened as R55 says. -/

namespace Sys2Proof.Machine

/-! ### The widened constant (R55) -/

/-- Under `IMM8_SIGNED` the word is the sign extension, so it has the constant's signed value. -/
theorem imm8_toInt_of_signed (p : Config.Params) (c : BitVec 8) (signed : p.imm8Signed = true) : (imm8 p c).toInt = c.toInt := by
  unfold imm8
  rw [if_pos signed]
  exact BitVec.toInt_signExtend_of_le (by decide)

/-- Otherwise the word is the zero extension, so it has the constant's unsigned value. -/
theorem imm8_toNat_of_unsigned (p : Config.Params) (c : BitVec 8) (unsigned : p.imm8Signed = false) :
    (imm8 p c).toNat = c.toNat := by
  unfold imm8
  rw [if_neg (by simp [unsigned])]
  exact BitVec.toNat_setWidth_of_le (by decide)

/-! ### The frame of a register write -/

theorem State.setReg_sameRegsBut (s : State) (r : Reg) (v : Word) : SameRegsBut [r] s (s.setReg r v) :=
  fun q outside => State.getReg_setReg_of_ne s r q v (List.ne_of_not_mem_cons outside)

theorem State.setReg_sameMemory (s : State) (r : Reg) (v : Word) : SameMemory s (s.setReg r v) :=
  fun a => State.setReg_wordAt s r v a

/-! ### MOV immediate (R80) -/

/-- MOV immediate completes in every state and is a single register write. -/
theorem exec_movImm (rd : Reg) (c : BitVec 8) (s : State) :
    exec (.movImm rd c) s = .next (s.setReg rd (imm8 s.params c)) := rfl

/-- The opcode alone selects MOV immediate (R62). -/
theorem decode_of_opcodeField_zero (w : Word) (opcode : opcodeField w = 0) :
    decode w = .instr (.movImm (reg0Field w) (const8Field w)) := by
  unfold decode
  rw [opcode]
  rfl

/-- Settles O26: the next state is `s` with the widened constant written to `rd`, so the value is the widening's and the frame that of a
register write. -/
theorem movImmediateLoadsTheWidenedConstant : Obligations.MovImmediateLoadsTheWidenedConstant := by
  refine ⟨decode_of_opcodeField_zero, fun rd c s => ⟨s.setReg rd (imm8 s.params c), exec_movImm rd c s, ?_, ?_,
    State.setReg_sameRegsBut s rd _, State.setReg_sameMemory s rd _, State.setReg_flags s rd _, State.setReg_pc s rd _,
    State.setReg_halted s rd _⟩⟩
  · intro signed
    rw [State.getReg_setReg_self]
    exact imm8_toInt_of_signed s.params c signed
  · intro unsigned
    rw [State.getReg_setReg_self]
    exact imm8_toNat_of_unsigned s.params c unsigned

end Sys2Proof.Machine
end

section
/-! The arithmetic and logic instructions (spec/42_arith_logic.md R113 to R121). Eight of the nine are one shared operation, `aluTwo`, and
NOT is its last part, `aluDeliver`: what these keep and which flags they leave is said once, so each instruction adds its decoding and what
its ALU operation makes of a number or of a bit. -/

namespace Sys2Proof.Machine

/-! ### Decoding (R62): the opcode alone selects the instruction -/

theorem decode_of_opcodeField_eight (w : Word) (opcode : opcodeField w = 8) :
    decode w = .instr (.addImm (reg0Field w) (reg1Field w) (f1Field w)) := by simp [decode, opcode]

theorem decode_of_opcodeField_nine (w : Word) (opcode : opcodeField w = 9) :
    decode w = .instr (.addReg (reg0Field w) (reg1Field w) (reg2Field w)) := by simp [decode, opcode]

theorem decode_of_opcodeField_ten (w : Word) (opcode : opcodeField w = 10) :
    decode w = .instr (.subImm (reg0Field w) (reg1Field w) (f1Field w)) := by simp [decode, opcode]

theorem decode_of_opcodeField_eleven (w : Word) (opcode : opcodeField w = 11) :
    decode w = .instr (.subReg (reg0Field w) (reg1Field w) (reg2Field w)) := by simp [decode, opcode]

theorem decode_of_opcodeField_twelve (w : Word) (opcode : opcodeField w = 12) :
    decode w = .instr (.shl (reg0Field w) (reg1Field w) (const4Field w)) := by simp [decode, opcode]

theorem decode_of_opcodeField_thirteen (w : Word) (opcode : opcodeField w = 13) :
    decode w = .instr (.shr (reg0Field w) (reg1Field w) (const4Field w)) := by simp [decode, opcode]

theorem decode_of_opcodeField_fourteen (w : Word) (opcode : opcodeField w = 14) :
    decode w = .instr (.and (reg0Field w) (reg1Field w) (reg2Field w)) := by simp [decode, opcode]

theorem decode_of_opcodeField_fifteen (w : Word) (opcode : opcodeField w = 15) :
    decode w = .instr (.or (reg0Field w) (reg1Field w) (reg2Field w)) := by simp [decode, opcode]

theorem decode_of_opcodeField_sixteen (w : Word) (opcode : opcodeField w = 16) :
    decode w = .instr (.not (reg0Field w) (reg1Field w)) := by simp [decode, opcode]

/-! ### Each instruction's one next state -/

theorem exec_addImm (rd ra : Reg) (c : BitVec 5) (s : State) :
    exec (.addImm rd ra c) s = .next (aluTwo .a .add rd ra (imm5 s.params c) s) := rfl

theorem exec_addReg (rd ra rb : Reg) (s : State) :
    exec (.addReg rd ra rb) s = .next (aluTwo .a .add rd ra (s.getReg rb) s) := rfl

theorem exec_subImm (rd ra : Reg) (c : BitVec 5) (s : State) :
    exec (.subImm rd ra c) s = .next (aluTwo .a .sub rd ra (imm5 s.params c) s) := rfl

theorem exec_subReg (rd ra rb : Reg) (s : State) :
    exec (.subReg rd ra rb) s = .next (aluTwo .a .sub rd ra (s.getReg rb) s) := rfl

theorem exec_shl (rd rs : Reg) (n : BitVec 4) (s : State) :
    exec (.shl rd rs n) s = .next (aluTwo .b .shl rd rs (shiftCount n) s) := rfl

theorem exec_shr (rd rs : Reg) (n : BitVec 4) (s : State) :
    exec (.shr rd rs n) s = .next (aluTwo .b .shr rd rs (shiftCount n) s) := rfl

theorem exec_and (rd ra rb : Reg) (s : State) :
    exec (.and rd ra rb) s = .next (aluTwo .a .and rd ra (s.getReg rb) s) := rfl

theorem exec_or (rd ra rb : Reg) (s : State) :
    exec (.or rd ra rb) s = .next (aluTwo .a .or rd ra (s.getReg rb) s) := rfl

theorem exec_not (rd rs : Reg) (s : State) :
    exec (.not rd rs) s = .next (aluDeliver .not rd (s.getReg rs) 0 s) := rfl

/-! ### What the ALU makes of two words (R110) -/

theorem aluResult_add_toNat (a b : Word) : (aluResult .add a b).toNat = (a.toNat + b.toNat) % 65536 :=
  BitVec.toNat_add a b

/-- The machine adds the two's complement `65536 - b`, which is `-b` modulo 65536. -/
theorem aluResult_sub_toNat (a b : Word) :
    ((aluResult .sub a b).toNat : Int) = (a.toNat - b.toNat : Int) % 65536 := by
  have wraps : (aluResult .sub a b).toNat = (65536 - b.toNat + a.toNat) % 65536 := BitVec.toNat_sub a b
  have small : b.toNat < 65536 := b.isLt
  omega

theorem shiftCount_toNat (n : BitVec 4) : (shiftCount n).toNat = n.toNat :=
  BitVec.toNat_setWidth_of_le (by decide)

theorem aluResult_shl_getLsbD (a : Word) (n : BitVec 4) (j : Nat) (inWord : j < 16) :
    (aluResult .shl a (shiftCount n)).getLsbD j = (decide (n.toNat ≤ j) && a.getLsbD (j - n.toNat)) := by
  have shifted : (aluResult .shl a (shiftCount n)).getLsbD j =
      (decide (j < 16) && !decide (j < (shiftCount n).toNat) && a.getLsbD (j - (shiftCount n).toNat)) :=
    BitVec.getLsbD_shiftLeft a (shiftCount n).toNat
  rw [shifted, shiftCount_toNat]
  simp only [inWord, decide_true, Bool.true_and, ← decide_not, Nat.not_lt]

theorem aluResult_shr_getLsbD (a : Word) (n : BitVec 4) (j : Nat) :
    (aluResult .shr a (shiftCount n)).getLsbD j = a.getLsbD (j + n.toNat) := by
  simp [aluResult, shiftCount_toNat, Nat.add_comm]

theorem aluResult_and_getLsbD (a b : Word) (j : Nat) :
    (aluResult .and a b).getLsbD j = (a.getLsbD j && b.getLsbD j) := BitVec.getLsbD_and

theorem aluResult_or_getLsbD (a b : Word) (j : Nat) :
    (aluResult .or a b).getLsbD j = (a.getLsbD j || b.getLsbD j) := BitVec.getLsbD_or

theorem aluResult_not_getLsbD (a b : Word) (j : Nat) (inWord : j < 16) :
    (aluResult .not a b).getLsbD j = !a.getLsbD j := by
  simp [aluResult, inWord]

/-! ### The flags under `FLAGS_ON_ALU = update` (R112) -/

/-- Whatever the operation, `alu_flags` takes ZR from the 16-bit result. -/
theorem aluFlags_zr (op : AluOp) (a b : Word) (s : State) :
    (aluFlags op a b (aluResult op a b) s).flags.zr = decide (aluResult op a b = 0) := by
  cases op <;> rfl

/-- Whatever the operation, `alu_flags` takes NG from bit 15 of the 16-bit result. -/
theorem aluFlags_ng (op : AluOp) (a b : Word) (s : State) :
    (aluFlags op a b (aluResult op a b) s).flags.ng = (aluResult op a b).getLsbD 15 := by
  cases op <;> rfl

/-- After a delivery ZR and NG are of the word the destination holds. -/
theorem aluDeliver_zr_ng_update (op : AluOp) (rd : Reg) (a b : Word) (s : State) (update : s.params.flagsOnAlu = .update) :
    (aluDeliver op rd a b s).flags.zr = decide ((aluDeliver op rd a b s).getReg rd = 0) ∧
      (aluDeliver op rd a b s).flags.ng = ((aluDeliver op rd a b s).getReg rd).getLsbD 15 := by
  rw [aluDeliver_flags_update op rd a b s update, aluDeliver_getReg, if_pos rfl]
  exact ⟨aluFlags_zr op a b s, aluFlags_ng op a b s⟩

section
variable (k : MbrClass) (op : AluOp) (rd ra : Reg) (b : Word) (s : State)

theorem aluTwo_zr_ng_update (update : s.params.flagsOnAlu = .update) :
    (aluTwo k op rd ra b s).flags.zr = decide ((aluTwo k op rd ra b s).getReg rd = 0) ∧
      (aluTwo k op rd ra b s).flags.ng = ((aluTwo k op rd ra b s).getReg rd).getLsbD 15 :=
  aluDeliver_zr_ng_update op rd _ b _ (by simpa using update)

/-- The flags of a two-operand instruction are those of its bus operand and its second operand. -/
theorem aluTwo_flags_update (update : s.params.flagsOnAlu = .update) :
    (aluTwo k op rd ra b s).flags =
      (aluFlags op (busValue k ra s) b (aluResult op (busValue k ra s) b) (clobberMbr k (afterBus k ra s))).flags :=
  aluDeliver_flags_update op rd _ b _ (by simpa using update)

theorem aluTwo_add_flags_update (update : s.params.flagsOnAlu = .update) :
    (aluTwo k .add rd ra b s).flags = addFlags (busValue k ra s) b :=
  aluTwo_flags_update k .add rd ra b s update

/-- The flags of SUB are those a comparison of its operands writes (R112, R144). -/
theorem aluTwo_sub_flags_update (update : s.params.flagsOnAlu = .update) :
    (aluTwo k .sub rd ra b s).flags = cmpFlags (busValue k ra s) b :=
  aluTwo_flags_update k .sub rd ra b s update

/-! ### The frames -/

theorem aluTwo_sameRegsBut : SameRegsBut (rd :: latched s.params k) s (aluTwo k op rd ra b s) := by
  intro q outside
  rw [List.mem_cons, not_or] at outside
  obtain ⟨notDestination, notLatched⟩ := outside
  exact aluTwo_getReg_of_ne k op rd ra q b s notDestination ((not_mem_latched s.params k q).mp notLatched)

/-- A two-operand instruction reaches its destination, the latch, ACC and the flags; `Updated` is what a statement says of the flags under
`FLAGS_ON_ALU = update`. -/
theorem aluTwo_frame {Updated : Prop} (updated : s.params.flagsOnAlu = .update → Updated) :
    SameRegsBut (rd :: latched s.params k) s (aluTwo k op rd ra b s) ∧ SameMemory s (aluTwo k op rd ra b s) ∧
      (aluTwo k op rd ra b s).pc = s.pc ∧ (aluTwo k op rd ra b s).halted = s.halted ∧
      (s.params.flagsOnAlu = .preserve → (aluTwo k op rd ra b s).flags = s.flags) ∧
      (s.params.flagsOnAlu = .update → Updated) :=
  ⟨aluTwo_sameRegsBut k op rd ra b s, aluTwo_wordAt k op rd ra b s, aluTwo_pc k op rd ra b s, aluTwo_halted k op rd ra b s,
    aluTwo_flags_preserve k op rd ra b s, updated⟩

end

theorem aluDeliver_sameRegsBut (op : AluOp) (rd : Reg) (a b : Word) (s : State) :
    SameRegsBut [rd] s (aluDeliver op rd a b s) := by
  intro q outside
  rw [aluDeliver_getReg, if_neg (List.ne_of_not_mem_cons outside)]

/-! ### ADD and SUB (R113 to R116) -/

/-- Settles O40: ADD immediate is the shared operation on the bus operand and the widened constant. -/
theorem addImmediateAddsModulo65536 : Obligations.AddImmediateAddsModulo65536 := by
  refine ⟨decode_of_opcodeField_eight, fun rd ra c s => ⟨_, exec_addImm rd ra c s, ?_,
    aluTwo_frame .a .add rd ra _ s (aluTwo_add_flags_update .a rd ra _ s)⟩⟩
  rw [aluTwo_getReg_self]
  exact aluResult_add_toNat _ _

/-- Settles O41: the second operand is the register itself, R7 too. -/
theorem addRegisterAddsModulo65536 : Obligations.AddRegisterAddsModulo65536 := by
  refine ⟨decode_of_opcodeField_nine, fun rd ra rb s => ⟨_, exec_addReg rd ra rb s, ?_,
    aluTwo_frame .a .add rd ra _ s (aluTwo_add_flags_update .a rd ra _ s)⟩⟩
  rw [aluTwo_getReg_self]
  exact aluResult_add_toNat _ _

/-- Settles O42: the constant is the one taken away. -/
theorem subImmediateSubtractsModulo65536 : Obligations.SubImmediateSubtractsModulo65536 := by
  refine ⟨decode_of_opcodeField_ten, fun rd ra c s => ⟨_, exec_subImm rd ra c s, ?_,
    aluTwo_frame .a .sub rd ra _ s (aluTwo_sub_flags_update .a rd ra _ s)⟩⟩
  rw [aluTwo_getReg_self]
  exact aluResult_sub_toNat _ _

/-- Settles O43: the second register, read exactly, is the one taken away. -/
theorem subRegisterSubtractsModulo65536 : Obligations.SubRegisterSubtractsModulo65536 := by
  refine ⟨decode_of_opcodeField_eleven, fun rd ra rb s => ⟨_, exec_subReg rd ra rb s, ?_,
    aluTwo_frame .a .sub rd ra _ s (aluTwo_sub_flags_update .a rd ra _ s)⟩⟩
  rw [aluTwo_getReg_self]
  exact aluResult_sub_toNat _ _

/-! ### The shifts and the bitwise operations (R117 to R121) -/

/-- Settles O44: both shifts are the shared operation in class B, with the zero-extended count as the second operand. -/
theorem shiftsMoveEveryBit : Obligations.ShiftsMoveEveryBit := by
  refine ⟨decode_of_opcodeField_twelve, decode_of_opcodeField_thirteen,
    fun rd rs n s => ⟨_, exec_shl rd rs n s, fun j inWord => ?_,
      aluTwo_frame .b .shl rd rs _ s (aluTwo_zr_ng_update .b .shl rd rs _ s)⟩,
    fun rd rs n s => ⟨_, exec_shr rd rs n s, fun j _ => ?_,
      aluTwo_frame .b .shr rd rs _ s (aluTwo_zr_ng_update .b .shr rd rs _ s)⟩⟩
  · rw [aluTwo_getReg_self]
    exact aluResult_shl_getLsbD _ n j inWord
  · rw [aluTwo_getReg_self]
    exact aluResult_shr_getLsbD _ n j

/-- Settles O45: AND and OR are the shared operation in class A, the second operand read exactly. -/
theorem andOrActOnEveryBit : Obligations.AndOrActOnEveryBit := by
  refine ⟨decode_of_opcodeField_fourteen, decode_of_opcodeField_fifteen,
    fun rd ra rb s => ⟨_, exec_and rd ra rb s, fun j _ => ?_,
      aluTwo_frame .a .and rd ra _ s (aluTwo_zr_ng_update .a .and rd ra _ s)⟩,
    fun rd ra rb s => ⟨_, exec_or rd ra rb s, fun j _ => ?_,
      aluTwo_frame .a .or rd ra _ s (aluTwo_zr_ng_update .a .or rd ra _ s)⟩⟩
  · rw [aluTwo_getReg_self]
    exact aluResult_and_getLsbD _ _ j
  · rw [aluTwo_getReg_self]
    exact aluResult_or_getLsbD _ _ j

/-- Settles O46: NOT only delivers, so it neither reads the bus nor clobbers R7, and its frame is the destination alone. -/
theorem notInvertsEveryBit : Obligations.NotInvertsEveryBit := by
  refine ⟨decode_of_opcodeField_sixteen, fun rd rs s => ⟨_, exec_not rd rs s, fun j inWord => ?_,
    aluDeliver_sameRegsBut .not rd _ _ s, aluDeliver_wordAt .not rd _ _ s, aluDeliver_pc .not rd _ _ s,
    aluDeliver_halted .not rd _ _ s, aluDeliver_flags_preserve .not rd _ _ s, aluDeliver_zr_ng_update .not rd _ _ s⟩⟩
  rw [aluDeliver_getReg, if_pos rfl]
  exact aluResult_not_getLsbD _ _ j inWord

end Sys2Proof.Machine
end

section
/-! CMP register and JMP (spec/43_control_flow.md R141, R146). A comparison is the shared operation `compare`, whose frame is said once for
any second operand; JMP is a single write of pc. -/

namespace Sys2Proof.Machine

/-! ### Decoding (R62): the opcode alone selects the instruction -/

theorem decode_of_opcodeField_seventeen (w : Word) (opcode : opcodeField w = 17) :
    decode w = .instr (.jmp (f2Field w)) := by simp [decode, opcode]

theorem decode_of_opcodeField_twentyone (w : Word) (opcode : opcodeField w = 21) :
    decode w = .instr (.cmpReg (reg0Field w) (reg1Field w)) := by simp [decode, opcode]

/-! ### Each instruction's one next state -/

theorem exec_jmp (l : Addr) (s : State) : exec (.jmp l) s = .next (s.setPc l) := rfl

/-- The second operand is the register itself, read before the latch is clobbered. -/
theorem exec_cmpReg (ra rb : Reg) (s : State) : exec (.cmpReg ra rb) s = .next (compare ra (s.getReg rb) s) := rfl

/-! ### The frame of a comparison (R145, R146) -/

theorem compare_sameRegsBut (ra : Reg) (b : Word) (s : State) : SameRegsBut (latched s.params .a) s (compare ra b s) :=
  fun q outside => compare_getReg ra q b s ((not_mem_latched s.params .a q).mp outside)

theorem compare_sameMemory (ra : Reg) (b : Word) (s : State) : SameMemory s (compare ra b s) :=
  fun a => compare_wordAt ra b s a

/-! ### The two instructions -/

/-- Settles O51: CMP register is the comparison with the second register read exactly, so its flags and its frame are the comparison's. -/
theorem cmpRegisterSetsAllFlags : Obligations.CmpRegisterSetsAllFlags :=
  ⟨decode_of_opcodeField_twentyone, fun ra rb s => ⟨compare ra (s.getReg rb) s, exec_cmpReg ra rb s,
    compare_flags ra _ s, compare_sameRegsBut ra _ s, compare_sameMemory ra _ s, compare_pc ra _ s, compare_halted ra _ s⟩⟩

/-- Settles O56: the next state is `s` with pc at the label. -/
theorem jmpGoesToItsLabel : Obligations.JmpGoesToItsLabel :=
  ⟨decode_of_opcodeField_seventeen, exec_jmp⟩

end Sys2Proof.Machine
end

section
/-! The round trips of the encoding (spec/30_encoding.md R60 to R64, R70). One equation carries them: re-encoding what a word decodes to
clears the word's unused bits and keeps every other bit. -/

namespace Sys2Proof

/-! ### A word is put together from its fields (R51) -/

/-- Two neighbouring fields joined are one field. -/
theorem join_fields (w : Word) (low n m : Nat) : w.extractLsb' (low + n) m ++ w.extractLsb' low n = w.extractLsb' low (m + n) :=
  BitVec.extractLsb'_append_extractLsb'_eq_extractLsb' rfl

theorem packT1_fields (w : Word) : packT1 (opcodeField w) (reg0Field w) (const8Field w) = w := by
  unfold packT1 opcodeField reg0Field const8Field
  rw [Reg.toBits_ofBits, join_fields w 8 3 5, join_fields w 0 8 8]
  exact extract_whole w

theorem packT2_fields (w : Word) : packT2 (opcodeField w) (reg0Field w) (reg1Field w) (f1Field w) = w := by
  unfold packT2 opcodeField reg0Field reg1Field f1Field
  rw [Reg.toBits_ofBits, Reg.toBits_ofBits, join_fields w 8 3 5, join_fields w 5 3 8, join_fields w 0 5 11]
  exact extract_whole w

theorem packT3_fields (w : Word) : packT3 (opcodeField w) (f2Field w) = w := by
  unfold packT3 opcodeField f2Field
  rw [join_fields w 0 11 5]
  exact extract_whole w

theorem packT4_fields (w : Word) :
    packT4 (opcodeField w) (reg0Field w) (reg1Field w) (reg2Field w) (countField w) = w := by
  unfold packT4 opcodeField reg0Field reg1Field reg2Field countField
  rw [Reg.toBits_ofBits, Reg.toBits_ofBits, Reg.toBits_ofBits, join_fields w 8 3 5, join_fields w 5 3 8, join_fields w 2 3 11,
    join_fields w 0 2 14]
  exact extract_whole w

/-- Type T5 always writes bit 0 as 0, so the bit is put in the place of the pack's constant. -/
theorem packT5_fields (w : Word) (even : w.extractLsb' 0 1 = 0#1) :
    packT5 (opcodeField w) (reg0Field w) (reg1Field w) (const4Field w) = w := by
  unfold packT5 opcodeField reg0Field reg1Field const4Field
  rw [Reg.toBits_ofBits, Reg.toBits_ofBits, ← even, join_fields w 8 3 5, join_fields w 5 3 8, join_fields w 1 4 11,
    join_fields w 0 1 15]
  exact extract_whole w

/-! ### Clearing the unused bits of a type keeps its fields (R61) -/

theorem and_ones_two (x : BitVec 2) : x &&& 3#2 = x := BitVec.and_allOnes
theorem and_ones_three (x : BitVec 3) : x &&& 7#3 = x := BitVec.and_allOnes
theorem and_ones_four (x : BitVec 4) : x &&& 15#4 = x := BitVec.and_allOnes
theorem and_ones_five (x : BitVec 5) : x &&& 31#5 = x := BitVec.and_allOnes
theorem and_ones_word (w : Word) : w &&& 65535#16 = w := BitVec.and_allOnes

theorem packT2_of_cleared (w : Word) :
    packT2 (opcodeField w) (reg0Field w) (reg1Field w) 0#5 = w &&& ~~~0x001F#16 := by
  rw [← packT2_fields (w &&& ~~~0x001F#16)]
  simp [opcodeField, reg0Field, reg1Field, f1Field, BitVec.extractLsb'_and, and_ones_three, and_ones_five]

theorem packT3_of_cleared (w : Word) : packT3 (opcodeField w) 0#11 = w &&& ~~~0x07FF#16 := by
  rw [← packT3_fields (w &&& ~~~0x07FF#16)]
  simp [opcodeField, f2Field, BitVec.extractLsb'_and, and_ones_five]

theorem packT4_of_cleared (w : Word) :
    packT4 (opcodeField w) (reg0Field w) (reg1Field w) (reg2Field w) 0#2 = w &&& ~~~0x0003#16 := by
  rw [← packT4_fields (w &&& ~~~0x0003#16)]
  simp [opcodeField, reg0Field, reg1Field, reg2Field, countField, BitVec.extractLsb'_and, and_ones_three, and_ones_five]

theorem packT5_of_cleared (w : Word) :
    packT5 (opcodeField w) (reg0Field w) (reg1Field w) (const4Field w) = w &&& ~~~0x0001#16 := by
  rw [← packT5_fields (w &&& ~~~0x0001#16) (by simp [BitVec.extractLsb'_and])]
  simp [opcodeField, reg0Field, reg1Field, const4Field, BitVec.extractLsb'_and, and_ones_three, and_ones_four, and_ones_five]

theorem ofBits_zero : Reg.ofBits 0#3 = .r0 := rfl

/-- PUSH and POP of one register: the second and the third register field are unused (R60). -/
theorem packT4_of_one (w : Word) :
    packT4 (opcodeField w) (reg0Field w) .r0 .r0 (countField w) = w &&& ~~~0x00FC#16 := by
  rw [← packT4_fields (w &&& ~~~0x00FC#16)]
  simp [opcodeField, reg0Field, reg1Field, reg2Field, countField, BitVec.extractLsb'_and, and_ones_two, and_ones_three, and_ones_five,
    ofBits_zero]

/-- PUSH and POP of two registers: the third register field is unused (R60). -/
theorem packT4_of_two (w : Word) :
    packT4 (opcodeField w) (reg0Field w) (reg1Field w) .r0 (countField w) = w &&& ~~~0x001C#16 := by
  rw [← packT4_fields (w &&& ~~~0x001C#16)]
  simp [opcodeField, reg0Field, reg1Field, reg2Field, countField, BitVec.extractLsb'_and, and_ones_two, and_ones_three, and_ones_five,
    ofBits_zero]

/-- A count that is not 0 selects one of the three forms of type T4N. -/
theorem packCounted_countedRegs (w : Word) (counted : countField w ≠ 0#2)
    (stack : (opcodeField w).toNat = 6 ∨ (opcodeField w).toNat = 7) :
    packCounted (opcodeField w) (countedRegs w) = w &&& ~~~unusedMask w := by
  have count : countField w = 1#2 ∨ countField w = 2#2 ∨ countField w = 3#2 := by
    revert counted
    generalize countField w = n
    revert n
    decide
  obtain one | two | three := count
  · have mask : unusedMask w = 0x00FC#16 := by obtain op | op := stack <;> simp [unusedMask, op, one]
    rw [mask, ← packT4_of_one w]
    simp [countedRegs, packCounted, one]
  · have mask : unusedMask w = 0x001C#16 := by obtain op | op := stack <;> simp [unusedMask, op, two]
    rw [mask, ← packT4_of_two w]
    simp [countedRegs, packCounted, two]
  · have mask : unusedMask w = 0#16 := by obtain op | op := stack <;> simp [unusedMask, op, three]
    simpa [countedRegs, packCounted, three, mask, and_ones_word] using packT4_fields w

/-- The decoder looks at the opcode as a number. -/
theorem opcodeField_of_toNat (w : Word) {n : Nat} (op : (opcodeField w).toNat = n) : BitVec.ofNat 5 n = opcodeField w := by
  simp [← op]

/-- Re-encoding a decoded word clears its unused bits and keeps the others. -/
theorem encode_of_decode (w : Word) (i : Instr) (decoded : decode w = .instr i) : encode i = w &&& ~~~unusedMask w := by
  unfold decode at decoded
  split at decoded
  case h_1 op | h_21 op =>
    cases decoded
    simpa [encode, unusedMask, op, ← opcodeField_of_toNat w op, and_ones_word] using packT1_fields w
  case h_2 op | h_17 op | h_22 op =>
    cases decoded
    simpa [encode, unusedMask, op, ← opcodeField_of_toNat w op] using packT2_of_cleared w
  case h_4 op | h_6 op | h_9 op | h_11 op =>
    cases decoded
    simpa [encode, unusedMask, op, ← opcodeField_of_toNat w op, and_ones_word] using packT2_fields w
  case h_3 op | h_5 op | h_18 op | h_19 op | h_23 op | h_24 op | h_25 op | h_26 op | h_27 op | h_28 op =>
    cases decoded
    simpa [encode, unusedMask, op, ← opcodeField_of_toNat w op, and_ones_word] using packT3_fields w
  case h_20 op | h_29 op =>
    cases decoded
    simpa [encode, unusedMask, op, ← opcodeField_of_toNat w op] using packT3_of_cleared w
  case h_10 op | h_12 op | h_15 op | h_16 op =>
    cases decoded
    simpa [encode, unusedMask, op, ← opcodeField_of_toNat w op] using packT4_of_cleared w
  case h_13 op | h_14 op =>
    cases decoded
    simpa [encode, unusedMask, op, ← opcodeField_of_toNat w op] using packT5_of_cleared w
  case h_7 op | h_8 op =>
    unfold decodeCounted at decoded
    split at decoded
    · cases decoded
    · next counted =>
      cases decoded
      simpa [encode, ← opcodeField_of_toNat w op] using packCounted_countedRegs w counted (by simp [op])
  case h_30 => cases decoded

/-! ### Decoding undoes encoding (R70) -/

/-- The count the encoder writes selects the registers it wrote (R60). -/
theorem decodeCounted_packCounted (mk : List Reg → Instr) (op : BitVec 5) (regs : List Reg) (counted : operandCountOk regs = true) :
    decodeCounted mk (packCounted op regs) = .instr (mk regs) := by
  match regs with
  | [] => simp [operandCountOk] at counted
  | [a] => simp [packCounted, decodeCounted, countedRegs]
  | [a, b] => simp [packCounted, decodeCounted, countedRegs]
  | [a, b, c] => simp [packCounted, decodeCounted, countedRegs]
  | _ :: _ :: _ :: _ :: rest => exact absurd counted (by simp [operandCountOk])

/-- Settles O2: the opcode written selects the arm, whose fields are the operands written; PUSH and POP add the count. -/
theorem decodeOfEncodeIsTheInstruction : Obligations.DecodeOfEncodeIsTheInstruction := by
  intro i wellFormed
  cases i with
  | push regs => simpa [encode, decode] using decodeCounted_packCounted .push 6#5 regs wellFormed
  | pop regs => simpa [encode, decode] using decodeCounted_packCounted .pop 7#5 regs wellFormed
  | _ => simp [encode, decode]

/-! ### Which words decode (R63, R64, R70) -/

theorem decode_of_unassigned (w : Word) (unassigned : 29 ≤ (opcodeField w).toNat) : decode w = .illegalOpcode w := by
  unfold decode
  split
  case h_30 => rfl
  all_goals omega

theorem decode_of_zero_count (w : Word) (stack : opcodeField w = 6 ∨ opcodeField w = 7) (none : countField w = 0) :
    decode w = .reservedEncoding w := by
  obtain op | op := stack <;> simp [decode, decodeCounted, op, none]

theorem operandCountOk_countedRegs (w : Word) (counted : countField w ≠ 0#2) : operandCountOk (countedRegs w) = true := by
  have positive : (countField w).toNat ≠ 0 := by simpa [← BitVec.toNat_inj] using counted
  unfold countedRegs
  split
  · contradiction
  all_goals rfl

/-- Every other word is a well-formed instruction of its opcode. -/
theorem decode_of_assigned (w : Word) (assigned : (opcodeField w).toNat < 29)
    (counted : opcodeField w = 6 ∨ opcodeField w = 7 → countField w ≠ 0) :
    ∃ i, decode w = .instr i ∧ WellFormed i = true ∧ opcodeOf i = opcodeField w := by
  unfold decode
  split
  case h_7 op =>
    have counted := counted (.inl (opcodeField_of_toNat w op).symm)
    exact ⟨.push (countedRegs w), if_neg counted, operandCountOk_countedRegs w counted, opcodeField_of_toNat w op⟩
  case h_8 op =>
    have counted := counted (.inr (opcodeField_of_toNat w op).symm)
    exact ⟨.pop (countedRegs w), if_neg counted, operandCountOk_countedRegs w counted, opcodeField_of_toNat w op⟩
  case h_30 =>
    simp only [imp_false] at *
    omega
  all_goals exact ⟨_, rfl, rfl, opcodeField_of_toNat w ‹_›⟩

/-- Settles O5: the opcode decides, and for PUSH and POP the count after it. -/
theorem everyWordDecodesOrIsRejectedByName : Obligations.EveryWordDecodesOrIsRejectedByName :=
  fun w => ⟨decode_of_unassigned w, decode_of_zero_count w, decode_of_assigned w⟩

/-! ### The unused bits (R61) -/

theorem encode_injective (i j : Instr) (wfi : WellFormed i = true) (wfj : WellFormed j = true) (same : encode i = encode j) : i = j := by
  have round := decodeOfEncodeIsTheInstruction i wfi
  rw [same, decodeOfEncodeIsTheInstruction j wfj] at round
  exact (Decoded.instr.inj round).symm

theorem clear_eq_self_iff (w m : Word) : w &&& ~~~m = w ↔ w &&& m = 0 := by
  constructor
  · intro kept
    rw [← kept, BitVec.and_assoc, BitVec.and_comm (~~~m), BitVec.and_not_self]
    exact BitVec.and_zero
  · intro none
    ext j inWord
    have gone : (w &&& m)[j] = false := by rw [none]; exact BitVec.getElem_zero inWord
    rw [BitVec.getElem_and] at gone
    rw [BitVec.getElem_and, BitVec.getElem_not]
    cases wj : w[j] <;> simp_all

/-- Settles O3: both sides say that clearing the unused bits changes nothing. -/
theorem encodeOfDecodeIsTheWordIffUnusedZero : Obligations.EncodeOfDecodeIsTheWordIffUnusedZero := by
  intro w i decoded
  rw [encode_of_decode w i decoded]
  exact clear_eq_self_iff w (unusedMask w)

/-- The word `w` with `v`'s bits where the mask `m` is 1. -/
def patch (w v m : Word) : Word := (w &&& ~~~m) ||| (v &&& m)

/-- A patch leaves alone every field outside its mask. -/
theorem extract_patch (w v m : Word) (low len : Nat) (outside : m.extractLsb' low len = 0) :
    (patch w v m).extractLsb' low len = w.extractLsb' low len := by
  ext j inField
  have zero : m.getLsbD (low + j) = false := by
    rw [← BitVec.getElem_extractLsb' (h := inField), outside]
    exact BitVec.getElem_zero inField
  simp only [BitVec.getElem_extractLsb', patch, BitVec.getLsbD_or, BitVec.getLsbD_and, BitVec.getLsbD_not, zero, Bool.not_false,
    Bool.and_true, Bool.and_false, Bool.or_false]
  by_cases inWord : low + j < 16
  · simp [inWord]
  · simp [BitVec.getLsbD_of_ge w _ (Nat.le_of_not_lt inWord)]

theorem patch_clear (w v m : Word) : patch w v m &&& ~~~m = w &&& ~~~m := by
  ext j inWord
  simp only [patch, BitVec.getElem_and, BitVec.getElem_or, BitVec.getElem_not]
  cases m[j] <;> simp

theorem opcodeField_unusedMask (w : Word) : opcodeField (unusedMask w) = 0 := by
  unfold unusedMask
  split
  case h_4 | h_5 => split <;> decide
  all_goals decide

/-- The count is a used field of PUSH and POP. -/
theorem countField_unusedMask (w : Word) (stack : opcodeField w = 6 ∨ opcodeField w = 7) : countField (unusedMask w) = 0 := by
  obtain op | op := stack
  · simp only [unusedMask, op, BitVec.reduceToNat]
    split <;> decide
  · simp only [unusedMask, op, BitVec.reduceToNat]
    split <;> decide

/-- The mask is determined by the opcode and, for PUSH and POP, the count. -/
theorem unusedMask_congr (v w : Word) (opcode : opcodeField v = opcodeField w)
    (count : opcodeField w = 6 ∨ opcodeField w = 7 → countField v = countField w) : unusedMask v = unusedMask w := by
  by_cases stack : opcodeField w = 6 ∨ opcodeField w = 7
  · rw [unusedMask, unusedMask, opcode, count stack]
  · have sixth : (opcodeField w).toNat ≠ 6 := fun h => stack (.inl (BitVec.eq_of_toNat_eq h))
    have seventh : (opcodeField w).toNat ≠ 7 := fun h => stack (.inr (BitVec.eq_of_toNat_eq h))
    unfold unusedMask
    rw [opcode]
    split
    case h_4 op => exact absurd op sixth
    case h_5 op => exact absurd op seventh
    all_goals rfl

/-- A word that decodes to an instruction has an assigned opcode and, for PUSH and POP, a count. -/
theorem assigned_of_decode (w : Word) (i : Instr) (decoded : decode w = .instr i) :
    (opcodeField w).toNat < 29 ∧ (opcodeField w = 6 ∨ opcodeField w = 7 → countField w ≠ 0) := by
  constructor
  · by_contra unassigned
    rw [decode_of_unassigned w (Nat.le_of_not_lt unassigned)] at decoded
    cases decoded
  · intro stack none
    rw [decode_of_zero_count w stack none] at decoded
    cases decoded

theorem decode_wellFormed (w : Word) (i : Instr) (decoded : decode w = .instr i) : WellFormed i = true := by
  obtain ⟨assigned, counted⟩ := assigned_of_decode w i decoded
  obtain ⟨j, decodedToo, wellFormed, -⟩ := decode_of_assigned w assigned counted
  cases decoded.symm.trans decodedToo
  exact wellFormed

/-- The instruction of a patched word is well formed and has the encoding of the instruction of the word itself, so it is that one. -/
theorem decode_patch (w v : Word) (i : Instr) (decoded : decode w = .instr i) : decode (patch w v (unusedMask w)) = .instr i := by
  have opcode : opcodeField (patch w v (unusedMask w)) = opcodeField w := extract_patch w v _ 11 5 (opcodeField_unusedMask w)
  have count (stack : opcodeField w = 6 ∨ opcodeField w = 7) : countField (patch w v (unusedMask w)) = countField w :=
    extract_patch w v _ 0 2 (countField_unusedMask w stack)
  obtain ⟨assigned, counted⟩ := assigned_of_decode w i decoded
  obtain ⟨j, decodedPatch, wellFormed, -⟩ := decode_of_assigned (patch w v (unusedMask w)) (by rwa [opcode])
    (by rw [opcode]; exact fun stack => count stack ▸ counted stack)
  have same : encode j = encode i := by
    rw [encode_of_decode _ j decodedPatch, encode_of_decode w i decoded, unusedMask_congr _ w opcode count, patch_clear]
  rw [decodedPatch, encode_injective j i wellFormed (decode_wellFormed w i decoded) same]

/-- Settles O4: what an encoder writes decodes again, so it is its own re-encoding, with the unused bits cleared. -/
theorem unusedBitsTakeNoPart : Obligations.UnusedBitsTakeNoPart := by
  refine ⟨fun w v i decoded => decode_patch w v i decoded, fun i wellFormed => ?_⟩
  have round := decodeOfEncodeIsTheInstruction i wellFormed
  exact (clear_eq_self_iff _ _).mp (encode_of_decode _ i round).symm

end Sys2Proof
end

section
/-! Where the constants and the offset stand in a word, and how they widen (spec/30_encoding.md R55 to R57). -/

namespace Sys2Proof.Machine

/-! ### Decoding (R62): the opcode alone selects the instruction -/

theorem decode_of_opcodeField_two (w : Word) (opcode : opcodeField w = 2) :
    decode w = .instr (.lda (f2Field w)) := by simp [decode, opcode]

theorem decode_of_opcodeField_three (w : Word) (opcode : opcodeField w = 3) :
    decode w = .instr (.ldr (reg0Field w) (reg1Field w) (f1Field w)) := by simp [decode, opcode]

theorem decode_of_opcodeField_five (w : Word) (opcode : opcodeField w = 5) :
    decode w = .instr (.strr (reg0Field w) (reg1Field w) (f1Field w)) := by simp [decode, opcode]

theorem decode_of_opcodeField_eighteen (w : Word) (opcode : opcodeField w = 18) :
    decode w = .instr (.bln (f2Field w)) := by simp [decode, opcode]

theorem decode_of_opcodeField_twenty (w : Word) (opcode : opcodeField w = 20) :
    decode w = .instr (.cmpImm (reg0Field w) (const8Field w)) := by simp [decode, opcode]

theorem decode_of_opcodeField_twentytwo (w : Word) (opcode : opcodeField w = 22) :
    decode w = .instr (.beq (f2Field w)) := by simp [decode, opcode]

theorem decode_of_opcodeField_twentythree (w : Word) (opcode : opcodeField w = 23) :
    decode w = .instr (.bne (f2Field w)) := by simp [decode, opcode]

theorem decode_of_opcodeField_twentyfour (w : Word) (opcode : opcodeField w = 24) :
    decode w = .instr (.bgt (f2Field w)) := by simp [decode, opcode]

theorem decode_of_opcodeField_twentyfive (w : Word) (opcode : opcodeField w = 25) :
    decode w = .instr (.bgtu (f2Field w)) := by simp [decode, opcode]

theorem decode_of_opcodeField_twentysix (w : Word) (opcode : opcodeField w = 26) :
    decode w = .instr (.blt (f2Field w)) := by simp [decode, opcode]

theorem decode_of_opcodeField_twentyseven (w : Word) (opcode : opcodeField w = 27) :
    decode w = .instr (.bltu (f2Field w)) := by simp [decode, opcode]

theorem decode_of_opcodeField_twentyeight (w : Word) (opcode : opcodeField w = 28) :
    decode w = .instr .halt := by simp [decode, opcode]

/-! ### Widening (R55 to R57) -/

theorem imm5_toInt_of_signed (p : Config.Params) (c : BitVec 5) (signed : p.imm5Signed = true) : (imm5 p c).toInt = c.toInt := by
  unfold imm5
  rw [if_pos signed]
  exact BitVec.toInt_signExtend_of_le (by decide)

theorem imm5_toNat_of_unsigned (p : Config.Params) (c : BitVec 5) (unsigned : p.imm5Signed = false) :
    (imm5 p c).toNat = c.toNat := by
  unfold imm5
  rw [if_neg (by simp [unsigned])]
  exact BitVec.toNat_setWidth_of_le (by decide)

theorem offset_toInt (o : BitVec 5) : (offset o).toInt = o.toInt := BitVec.toInt_signExtend_of_le (by decide)

/-- A 5-bit constant without its top bit is the same word under every setting: both extensions add zeros. -/
theorem imm5_of_small (p : Config.Params) (c : BitVec 5) (small : c.toNat ≤ 15) : imm5 p c = c.zeroExtend 16 := by
  have positive : c.msb = false := by
    rw [BitVec.msb_eq_false_iff_two_mul_lt]
    omega
  unfold imm5
  split
  · exact BitVec.signExtend_eq_setWidth_of_msb_false positive
  · rfl

/-- Settles O24: the widened word has the number of the field, whose width bounds it. -/
theorem constantsAndOffsetsWiden : Obligations.ConstantsAndOffsetsWiden := by
  refine ⟨fun w => ⟨decode_of_opcodeField_zero w, decode_of_opcodeField_twenty w, decode_of_opcodeField_eight w,
    decode_of_opcodeField_ten w, decode_of_opcodeField_three w, decode_of_opcodeField_five w⟩, ?_, ?_, ?_, ?_, ?_, ?_⟩
  · intro p c signed
    rw [imm8_toInt_of_signed p c signed]
    exact ⟨rfl, BitVec.le_toInt c, Int.le_of_lt_add_one BitVec.toInt_lt⟩
  · intro p c unsigned
    rw [imm8_toNat_of_unsigned p c unsigned]
    exact ⟨rfl, Nat.le_of_lt_succ c.isLt⟩
  · intro p c signed
    rw [imm5_toInt_of_signed p c signed]
    exact ⟨rfl, BitVec.le_toInt c, Int.le_of_lt_add_one BitVec.toInt_lt⟩
  · intro p c unsigned
    rw [imm5_toNat_of_unsigned p c unsigned]
    exact ⟨rfl, Nat.le_of_lt_succ c.isLt⟩
  · intro p q c small
    rw [imm5_of_small p c small, imm5_of_small q c small]
  · intro o
    rw [offset_toInt o]
    exact ⟨rfl, BitVec.le_toInt o, Int.le_of_lt_add_one BitVec.toInt_lt⟩

end Sys2Proof.Machine
end

section
/-! The step: what runs, what stops it before an instruction runs, and the halted machine (spec/10_state.md R14, R19;
spec/30_encoding.md R63, R64; spec/20_memory.md R34). -/

namespace Sys2Proof.Machine

/-! ### The three ways a fetched word goes on -/

section
variable (s : State) (w : Word) (running : s.halted = false) (word : s.wordAt s.pc = some w)
include running word

theorem step_of_decode_instr (i : Instr) (decoded : decode w = .instr i) : step s = exec i (s.fetched w) := by
  simp [step, running, (fetch_ok_iff s _ w).mpr ⟨word, rfl⟩, decoded, State.fetched]

theorem step_of_decode_illegal (v : Word) (decoded : decode w = .illegalOpcode v) :
    step s = .fault (.illegalOpcode v (s.fetched w)) := by
  simp [step, running, (fetch_ok_iff s _ w).mpr ⟨word, rfl⟩, decoded, State.fetched]

theorem step_of_decode_reserved (v : Word) (decoded : decode w = .reservedEncoding v) :
    step s = .fault (.reservedEncoding v (s.fetched w)) := by
  simp [step, running, (fetch_ok_iff s _ w).mpr ⟨word, rfl⟩, decoded, State.fetched]

end

theorem step_of_no_word (s : State) (running : s.halted = false) (none : s.wordAt s.pc = none) :
    step s = .fault (.unsetRead s.pc (s.setMar s.pc)) := by
  simp [step, running, (fetch_error_iff s _).mpr ⟨none, rfl⟩]

theorem step_of_halted (s : State) (halted : s.halted = true) : step s = .next s := by
  simp [step, halted]

/-! ### The fetched state -/

@[simp] theorem State.fetched_params (s : State) (w : Word) : (s.fetched w).params = s.params := rfl
@[simp] theorem State.fetched_flags (s : State) (w : Word) : (s.fetched w).flags = s.flags := rfl
@[simp] theorem State.fetched_pc (s : State) (w : Word) : (s.fetched w).pc = s.pc + 1 := rfl
@[simp] theorem State.fetched_mem (s : State) (w : Word) : (s.fetched w).mem = s.mem := rfl
@[simp] theorem State.fetched_halted (s : State) (w : Word) : (s.fetched w).halted = s.halted := rfl
@[simp] theorem State.fetched_getReg (s : State) (w : Word) (q : Reg) : (s.fetched w).getReg q = s.getReg q := rfl
@[simp] theorem State.fetched_wordAt (s : State) (w : Word) (a : Addr) : (s.fetched w).wordAt a = s.wordAt a := rfl

theorem next_pc_toNat (a : Addr) : (a + 1).toNat = (a.toNat + 1) % 2048 := BitVec.toNat_add a 1

/-- Settles O6: the fetch answers the word and the fetched state, and decoding selects the meaning run there. -/
theorem stepRunsTheDecodedInstruction : Obligations.StepRunsTheDecodedInstruction :=
  fun s w i running word decoded => ⟨step_of_decode_instr s w running word i decoded, next_pc_toNat s.pc,
    rfl, rfl, rfl, rfl, rfl, rfl, running, rfl⟩

/-! ### Words that stop the step -/

theorem opcodeField_toNat (w : Word) : (opcodeField w).toNat = w.toNat / 2048 := by
  have small : w.toNat < 65536 := w.isLt
  rw [opcodeField, BitVec.extractLsb'_toNat, Nat.shiftRight_eq_div_pow]
  omega

/-- Settles O7: from 0xE800 on the opcode is 29 at least. -/
theorem unassignedOpcodesFault : Obligations.UnassignedOpcodesFault := by
  intro s w running word high
  have unassigned : 29 ≤ (opcodeField w).toNat := by
    rw [opcodeField_toNat]
    omega
  exact step_of_decode_illegal s w running word w (decode_of_unassigned w unassigned)

/-- The mask 0xF803 keeps the opcode and the count. -/
theorem fields_of_stack_mask (w : Word) :
    opcodeField w = opcodeField (w &&& 0xF803) ∧ countField w = countField (w &&& 0xF803) := by
  simp [opcodeField, countField, BitVec.extractLsb'_and, and_ones_five, and_ones_two]

/-- Settles O8: such a word has opcode 6 or 7 and count 0. -/
theorem zeroCountStackWordsFault : Obligations.ZeroCountStackWordsFault := by
  intro s w running word masked
  obtain ⟨opcode, count⟩ := fields_of_stack_mask w
  have stack : opcodeField w = 6 ∨ opcodeField w = 7 := by
    obtain push | pop := masked
    · exact .inl (by rw [opcode, push]; decide)
    · exact .inr (by rw [opcode, pop]; decide)
  have none : countField w = 0 := by
    obtain push | pop := masked
    · rw [count, push]; decide
    · rw [count, pop]; decide
  exact step_of_decode_reserved s w running word w (decode_of_zero_count w stack none)

/-- Settles O9: a fetch reads the word at pc first. -/
theorem fetchOfUnsetWordFaults : Obligations.FetchOfUnsetWordFaults := step_of_no_word

/-! ### The halted machine (R19) and HALT (R153) -/

/-- Settles O10: one step stutters, so every number of steps does. -/
theorem haltedMachineNeverChanges : Obligations.HaltedMachineNeverChanges := by
  intro n s halted
  induction n with
  | zero => rfl
  | succ n ih =>
    have stutter : Sys2Proof.core.step s = .next s := step_of_halted s halted
    rw [Host.Core.run, stutter]
    exact ih

theorem exec_halt (s : State) : exec .halt s = .next s.halt := rfl

/-- Settles O59: the next state is `s` with the run state set, where the machine stutters. -/
theorem haltStopsTheMachine : Obligations.HaltStopsTheMachine :=
  ⟨decode_of_opcodeField_twentyeight, fun s => ⟨s.halt, exec_halt s, State.halt_halted s, fun q _ => State.halt_getReg s q,
    State.halt_wordAt s, State.halt_flags s, State.halt_pc s, fun n => haltedMachineNeverChanges n s.halt (State.halt_halted s)⟩⟩

end Sys2Proof.Machine
end

section
/-! Reset and launch (spec/70_reset_and_hazards.md R191, R197). -/

namespace Sys2Proof.Machine

/-- Settles O18: each is a field of the reset state. -/
theorem resetLeavesTheSpecifiedValues : Obligations.ResetLeavesTheSpecifiedValues :=
  ⟨rfl, rfl, fun _ => rfl, rfl⟩

/-- Settles O20: the empty memory is in canonical form. -/
theorem invariantHoldsAtReset : Obligations.InvariantHoldsAtReset := reset_mem_wf

/-- A loaded image reads at each address as its first word for the address: the loader writes the rest of the image before it. -/
theorem read_load (image : List (Addr × Word)) (a : Addr) : Memory.read (Memory.load image) a.toNat = List.lookup a image := by
  induction image with
  | nil => rfl
  | cons cell rest ih =>
    obtain ⟨k, v⟩ := cell
    rw [Memory.load, Memory.read_write, List.lookup_cons, ih]
    by_cases here : a = k
    · simp [here]
    · have differs : (a == k) = false := by simpa using here
      simp [here, differs, BitVec.toNat_inj]

/-- Settles O19: the launched state is the reset one with the image loaded. -/
theorem launchPlacesTheImage : Obligations.LaunchPlacesTheImage :=
  fun _ image => ⟨rfl, rfl, rfl, Memory.load_wf image, read_load image⟩

end Sys2Proof.Machine
end

section
/-! Memory access, addresses and the operand latch (spec/20_memory.md R34, R35; spec/42_arith_logic.md R111). -/

namespace Sys2Proof.Machine

/-! ### MemRead and MemWrite (R34) -/

theorem memWrite_wordAt_self (a : Addr) (v : Word) (s : State) : (memWrite a v s).wordAt a = some v := by
  rw [memWrite_wordAt, if_pos rfl]

theorem memWrite_sameMemoryBut (a : Addr) (v : Word) (s : State) : SameMemoryBut a s (memWrite a v s) := by
  intro b other
  rw [memWrite_wordAt, if_neg other]

/-- Settles O22: the laws of `memRead` and `memWrite`, put together. -/
theorem memoryPrimitivesReadTheLastWrite : Obligations.MemoryPrimitivesReadTheLastWrite := by
  refine ⟨fun a v s => ?_, fun a v s t read => ?_, memRead_of_none, fun a v s => ?_⟩
  · rw [memRead_ok_iff]
    exact and_iff_left rfl
  · obtain ⟨word, rfl⟩ := (memRead_ok_iff a s t v).mp read
    exact ⟨word, State.setMar_wordAt s a, rfl, rfl, rfl⟩
  · exact ⟨memWrite_wordAt_self a v s, memWrite_sameMemoryBut a v s, rfl, rfl, rfl⟩

/-! ### Effective addresses (R35) -/

theorem lowAddr_toNat (v : Word) : (lowAddr v).toNat = v.toNat % 2048 := by
  rw [lowAddr, BitVec.extractLsb'_toNat, Nat.shiftRight_zero]

theorem effAddr_of_ignore (p : Config.Params) (v : Word) (ignore : p.addrHigh = .ignore) : effAddr p v = some (lowAddr v) := by
  simp [effAddr, ignore]

/-- The bits `ADDR_HIGH = refuse` looks at are those of the opcode in an instruction word. -/
theorem high_bits_zero_iff (v : Word) : v.extractLsb' 11 5 = 0#5 ↔ v.toNat < 2048 := by
  rw [← BitVec.toNat_inj]
  show (opcodeField v).toNat = 0 ↔ _
  rw [opcodeField_toNat]
  omega

theorem effAddr_of_refuse (p : Config.Params) (v : Word) (refuse : p.addrHigh = .refuse) :
    effAddr p v = if v.toNat < 2048 then some (lowAddr v) else none := by
  simp [effAddr, refuse, high_bits_zero_iff]

/-- Settles O23: LDR and STRR make their address before anything else, so they stop where it is refused. -/
theorem effectiveAddressByAddrHigh : Obligations.EffectiveAddressByAddrHigh := by
  refine ⟨fun p v ignore => ⟨_, effAddr_of_ignore p v ignore, lowAddr_toNat v⟩, fun p v refuse low => ⟨lowAddr v, ?_, ?_⟩,
    fun p v refuse high => ?_, fun rd ra o s none => ⟨⟨afterBus .b ra s, ?_⟩, ⟨afterBus .b rd (afterBus .b ra s), ?_⟩⟩⟩
  · rw [effAddr_of_refuse p v refuse, if_pos low]
  · rw [lowAddr_toNat, Nat.mod_eq_of_lt low]
  · rw [effAddr_of_refuse p v refuse, if_neg (Nat.not_lt.mpr high)]
  · simp [exec, execLdr, none]
  · simp [exec, execStrr, none]

/-! ### The operand latch (R111) -/

/-- Where the bus is exact, reading over it draws no free value. -/
theorem afterBus_of_closed (k : MbrClass) (r : Reg) (s : State) (closed : r = .r7 → mbrActive s.params k = false) :
    afterBus k r s = s := by
  unfold afterBus busOpen
  by_cases mbr : r = .r7
  · simp [closed mbr]
  · simp [mbr]

theorem clobberMbr_sameRegsBut (k : MbrClass) (s : State) : SameRegsBut (latched s.params k) s (clobberMbr k s) :=
  fun q outside => clobberMbr_getReg k s q ((not_mem_latched s.params k q).mp outside)

/-- Settles O38: the table of R111 row by row, then the bus and the clobber outside it. -/
theorem latchReachesOnlyR7 : Obligations.LatchReachesOnlyR7 := by
  refine ⟨fun p k => ?_, fun k r s outside => ?_, fun k s => ?_⟩
  · cases model : p.mbrModel <;> cases k <;> simp [mbrActive, model]
  · have closed := (not_mem_latched s.params k r).mp outside
    exact ⟨busValue_of_closed k r s closed, afterBus_of_closed k r s closed⟩
  · exact ⟨clobberMbr_sameRegsBut k s, clobberMbr_wordAt k s, clobberMbr_flags k s, clobberMbr_pc k s⟩

end Sys2Proof.Machine
end

section
/-! Flags (spec/43_control_flow.md R144; spec/42_arith_logic.md R112). A 16-bit sum or difference is the exact one unless the exact one is
out of range, and then its sign is wrong. -/

namespace Sys2Proof.Machine

theorem msb_iff_negative (a : Word) : a.msb = true ↔ a.toInt < 0 := by
  rw [BitVec.msb_eq_toInt, decide_eq_true_iff]

theorem toInt_range_word (a : Word) : -32768 ≤ a.toInt ∧ a.toInt ≤ 32767 :=
  ⟨BitVec.le_toInt a, Int.le_of_lt_add_one BitVec.toInt_lt⟩

/-- Two's complement wraps a number inside twice the range by at most one turn. -/
theorem bmod_word (x : Int) (low : -65536 ≤ x) (high : x ≤ 65535) :
    x.bmod 65536 = if x < -32768 then x + 65536 else if 32767 < x then x - 65536 else x := by
  rw [Int.bmod_def]
  split_ifs <;> omega

theorem add_toInt (a b : Word) : (a + b).toInt =
    if a.toInt + b.toInt < -32768 then a.toInt + b.toInt + 65536
    else if 32767 < a.toInt + b.toInt then a.toInt + b.toInt - 65536 else a.toInt + b.toInt := by
  have rangeA := toInt_range_word a
  have rangeB := toInt_range_word b
  rw [BitVec.toInt_add]
  exact bmod_word _ (by omega) (by omega)

theorem sub_toInt (a b : Word) : (a - b).toInt =
    if a.toInt - b.toInt < -32768 then a.toInt - b.toInt + 65536
    else if 32767 < a.toInt - b.toInt then a.toInt - b.toInt - 65536 else a.toInt - b.toInt := by
  have rangeA := toInt_range_word a
  have rangeB := toInt_range_word b
  rw [BitVec.toInt_sub]
  exact bmod_word _ (by omega) (by omega)

/-- OV of an addition: the operands have one sign and the 16-bit sum the other. -/
theorem addFlags_ov_iff (a b : Word) :
    (addFlags a b).ov = true ↔ a.toInt + b.toInt < -32768 ∨ 32767 < a.toInt + b.toInt := by
  have rangeA := toInt_range_word a
  have rangeB := toInt_range_word b
  have sum := add_toInt a b
  simp only [addFlags, BitVec.msb_eq_toInt, Bool.and_eq_true, beq_iff_eq, bne_iff_ne, ne_eq, decide_eq_decide]
  split_ifs at sum <;> omega

/-- OV of a subtraction: the operands have different signs and the 16-bit difference that of the second. -/
theorem cmpFlags_ov_iff (a b : Word) :
    (cmpFlags a b).ov = true ↔ a.toInt - b.toInt < -32768 ∨ 32767 < a.toInt - b.toInt := by
  have rangeA := toInt_range_word a
  have rangeB := toInt_range_word b
  have difference := sub_toInt a b
  simp only [cmpFlags, BitVec.msb_eq_toInt, Bool.and_eq_true, bne_iff_ne, ne_eq, decide_eq_decide]
  split_ifs at difference <;> omega

/-! ### What a comparison's flags say of the operands -/

section
variable (a b : Word)

theorem cmpFlags_ng_iff : (cmpFlags a b).ng = true ↔ (a - b).toInt < 0 := msb_iff_negative (a - b)

theorem cmpFlags_zr_iff : (cmpFlags a b).zr = true ↔ a = b := by
  have zero : (cmpFlags a b).zr = (a - b == 0) := rfl
  rw [zero, beq_iff_eq]
  exact sub_eq_zero

theorem cmpFlags_ca_iff : (cmpFlags a b).ca = true ↔ b.toNat ≤ a.toNat := BitVec.ule_iff_toNat_le

/-- The sign of the 16-bit difference is that of the exact one unless it overflowed. -/
theorem cmpFlags_ng_ne_ov_iff : (cmpFlags a b).ng ≠ (cmpFlags a b).ov ↔ a.toInt < b.toInt := by
  have rangeA := toInt_range_word a
  have rangeB := toInt_range_word b
  have difference := sub_toInt a b
  have sign := cmpFlags_ng_iff a b
  have overflow := cmpFlags_ov_iff a b
  rw [ne_eq, Bool.eq_iff_iff, sign, overflow]
  split_ifs at difference <;> omega

theorem cmpFlags_ng_eq_ov_iff : (cmpFlags a b).ng = (cmpFlags a b).ov ↔ b.toInt ≤ a.toInt := by
  rw [← not_iff_not, Int.not_le]
  exact cmpFlags_ng_ne_ov_iff a b

end

/-- Settles O49: each flag read off the 16-bit difference, NG against OV off the exact one. -/
theorem comparisonFlagsAreOfTheDifference : Obligations.ComparisonFlagsAreOfTheDifference := by
  intro a b
  refine ⟨beq_iff_eq, cmpFlags_zr_iff a b, rfl, cmpFlags_ca_iff a b, ?_, cmpFlags_ng_ne_ov_iff a b⟩
  have overflow : (cmpFlags a b).ov = (a.getLsbD 15 != b.getLsbD 15 && (a - b).getLsbD 15 != a.getLsbD 15) := rfl
  rw [overflow, Bool.and_eq_true, bne_iff_ne, bne_iff_ne]

/-- Settles O48: ZR, NG and CA are their own formulas; OV is that the exact result is out of range. -/
theorem updatedFlagsAreTheExactOnes : Obligations.UpdatedFlagsAreTheExactOnes :=
  ⟨fun a b => ⟨rfl, rfl, rfl, addFlags_ov_iff a b⟩, fun a b => ⟨rfl, rfl, rfl, cmpFlags_ov_iff a b⟩⟩

end Sys2Proof.Machine
end

section
/-! Moves, transfers and branches (spec/40_data_movement.md R81; spec/43_control_flow.md R140 to R152). A conditional branch is `branchIf`
of its condition, so each statement about one is a reading of its condition. -/

namespace Sys2Proof.Machine

/-! ### Each instruction's one next state -/

theorem exec_movReg (rd rs : Reg) (s : State) : exec (.movReg rd rs) s = .next (s.setReg rd (s.getReg rs)) := rfl

theorem exec_cmpImm (ra : Reg) (c : BitVec 8) (s : State) :
    exec (.cmpImm ra c) s = .next (compare ra (imm8 s.params c) s) := rfl

theorem exec_bln (l : Addr) (s : State) : exec (.bln l) s = .next ((s.setReg .r6 (s.pc.zeroExtend 16)).setPc l) := rfl

theorem exec_ret (s : State) : exec .ret s = .next (s.setPc (lowAddr (s.getReg .r6))) := rfl

/-- Settles O27: the next state is `s` with the source's word written to `rd`. -/
theorem movRegisterCopiesTheSource : Obligations.MovRegisterCopiesTheSource :=
  fun rd rs s => ⟨s.setReg rd (s.getReg rs), exec_movReg rd rs s, State.getReg_setReg_self s rd _,
    State.setReg_sameRegsBut s rd _, State.setReg_sameMemory s rd _, State.setReg_flags s rd _, State.setReg_pc s rd _,
    State.setReg_halted s rd _⟩

/-- Settles O50: CMP immediate is the comparison with the widened constant. -/
theorem cmpImmediateSetsAllFlags : Obligations.CmpImmediateSetsAllFlags :=
  ⟨decode_of_opcodeField_twenty, fun ra c s => ⟨compare ra (imm8 s.params c) s, exec_cmpImm ra c s, compare_flags ra _ s,
    compare_sameRegsBut ra _ s, compare_sameMemory ra _ s, compare_pc ra _ s, compare_halted ra _ s⟩⟩

/-! ### Call and return (R142, R143) -/

/-- The link is the 11-bit pc extended with zeros, so its low 11 bits are that pc. -/
theorem lowAddr_zeroExtend (a : Addr) : lowAddr (a.zeroExtend 16) = a := by
  apply BitVec.eq_of_toNat_eq
  rw [lowAddr_toNat, BitVec.toNat_setWidth_of_le (by decide), Nat.mod_eq_of_lt a.isLt]

/-- Settles O57: the link is the advanced pc, at a step the address after the instruction. -/
theorem blnLinksTheNextAddress : Obligations.BlnLinksTheNextAddress := by
  have link (a : Addr) : (a.zeroExtend 16 : Word).toNat = a.toNat := BitVec.toNat_setWidth_of_le (by decide)
  refine ⟨decode_of_opcodeField_eighteen, fun l s => ⟨_, exec_bln l s, rfl, ?_, ?_, fun _ => rfl, rfl, rfl⟩,
    fun s w l running word decoded => ⟨_, step_of_decode_instr s w running word _ decoded, rfl, ?_⟩⟩
  · rw [State.setPc_getReg, State.getReg_setReg_self]
    exact link s.pc
  · exact State.setReg_sameRegsBut s .r6 _
  · rw [State.setPc_getReg, State.getReg_setReg_self]
    exact (link (s.pc + 1)).trans (next_pc_toNat s.pc)

/-- Settles O58: RET drops the zeros the link was extended with. -/
theorem retGoesToTheLinkRegister : Obligations.RetGoesToTheLinkRegister := by
  refine ⟨fun s => ⟨_, lowAddr_toNat _, exec_ret s⟩, fun l s t u called linked => ?_⟩
  cases (exec_bln l s).symm.trans called
  rw [exec_ret, linked, State.setPc_getReg, State.getReg_setReg_self, lowAddr_zeroExtend]

/-! ### The conditional branches -/

/-- A branch whose condition is a proposition's truth value goes to its label where the proposition holds. -/
theorem branchIf_of_iff {p : Prop} [Decidable p] (taken : Bool) (l : Addr) (s : State) (condition : taken = true ↔ p) :
    branchIf taken l s = if p then s.setPc l else s :=
  if_congr condition rfl rfl

section
variable {p : Prop} [Decidable p] (l : Addr) (s : State)

theorem exec_beq_of_iff (condition : s.flags.zr = true ↔ p) : exec (.beq l) s = .next (if p then s.setPc l else s) :=
  congrArg Host.Outcome.next (branchIf_of_iff _ l s condition)

theorem exec_bne_of_iff (condition : s.flags.zr = false ↔ p) : exec (.bne l) s = .next (if p then s.setPc l else s) :=
  congrArg Host.Outcome.next (branchIf_of_iff _ l s (by rwa [Bool.not_eq_true']))

theorem exec_bgt_of_iff (condition : s.flags.ng = s.flags.ov ∧ (s.params.bgtExcludesEqual = false ∨ s.flags.zr = false) ↔ p) :
    exec (.bgt l) s = .next (if p then s.setPc l else s) :=
  congrArg Host.Outcome.next (branchIf_of_iff _ l s
    (by rwa [Bool.and_eq_true, beq_iff_eq, Bool.or_eq_true, Bool.not_eq_true', Bool.not_eq_true']))

theorem exec_bgtu_of_iff (condition : s.flags.ca = true ∧ s.flags.zr = false ↔ p) :
    exec (.bgtu l) s = .next (if p then s.setPc l else s) :=
  congrArg Host.Outcome.next (branchIf_of_iff _ l s (by rwa [Bool.and_eq_true, Bool.not_eq_true']))

theorem exec_blt_of_iff (condition : s.flags.ng ≠ s.flags.ov ↔ p) : exec (.blt l) s = .next (if p then s.setPc l else s) :=
  congrArg Host.Outcome.next (branchIf_of_iff _ l s (by rwa [bne_iff_ne]))

theorem exec_bltu_of_iff (condition : s.flags.ca = false ↔ p) : exec (.bltu l) s = .next (if p then s.setPc l else s) :=
  congrArg Host.Outcome.next (branchIf_of_iff _ l s (by rwa [Bool.not_eq_true']))

end

/-! ### The branches after a comparison (R144) -/

section
variable (a b : Word) (l : Addr) (s : State) (compared : s.flags = cmpFlags a b)
include compared

theorem exec_beq_of_compared : exec (.beq l) s = .next (if a = b then s.setPc l else s) :=
  exec_beq_of_iff l s (by rw [compared]; exact cmpFlags_zr_iff a b)

theorem exec_bne_of_compared : exec (.bne l) s = .next (if a ≠ b then s.setPc l else s) :=
  exec_bne_of_iff l s (by rw [compared, ne_eq, ← cmpFlags_zr_iff a b, Bool.not_eq_true])

/-- BGT as printed does not look at ZR, so it is taken on equality. -/
theorem exec_bgt_of_compared (includes : s.params.bgtExcludesEqual = false) :
    exec (.bgt l) s = .next (if b.toInt ≤ a.toInt then s.setPc l else s) := by
  apply exec_bgt_of_iff
  rw [compared, cmpFlags_ng_eq_ov_iff]
  exact and_iff_left (.inl includes)

theorem exec_bgt_of_compared_excluding (excludes : s.params.bgtExcludesEqual = true) :
    exec (.bgt l) s = .next (if b.toInt < a.toInt then s.setPc l else s) := by
  apply exec_bgt_of_iff
  rw [compared, cmpFlags_ng_eq_ov_iff, excludes, ← Bool.not_eq_true (cmpFlags a b).zr, cmpFlags_zr_iff, ← BitVec.toInt_inj]
  simp only [reduceCtorEq, false_or]
  omega

theorem exec_bgtu_of_compared : exec (.bgtu l) s = .next (if b.toNat < a.toNat then s.setPc l else s) := by
  apply exec_bgtu_of_iff
  rw [compared, cmpFlags_ca_iff, ← Bool.not_eq_true (cmpFlags a b).zr, cmpFlags_zr_iff, ← BitVec.toNat_inj]
  omega

theorem exec_blt_of_compared : exec (.blt l) s = .next (if a.toInt < b.toInt then s.setPc l else s) :=
  exec_blt_of_iff l s (by rw [compared]; exact cmpFlags_ng_ne_ov_iff a b)

theorem exec_bltu_of_compared : exec (.bltu l) s = .next (if a.toNat < b.toNat then s.setPc l else s) :=
  exec_bltu_of_iff l s (by rw [compared, ← Bool.not_eq_true, cmpFlags_ca_iff, Nat.not_le])

end

/-- Settles O52: both read ZR, which is equality after a comparison. -/
theorem beqBneBranchOnEquality : Obligations.BeqBneBranchOnEquality :=
  ⟨decode_of_opcodeField_twentytwo, decode_of_opcodeField_twentythree, fun l s => exec_beq_of_iff l s Iff.rfl,
    fun l s => exec_bne_of_iff l s Iff.rfl,
    fun a b l s compared => ⟨exec_beq_of_compared a b l s compared, exec_bne_of_compared a b l s compared⟩⟩

/-- Settles O53: both compare NG with OV, which is the signed order after a comparison. -/
theorem bgtBltBranchOnSignedOrder : Obligations.BgtBltBranchOnSignedOrder :=
  ⟨decode_of_opcodeField_twentyfour, decode_of_opcodeField_twentysix, fun l s => exec_bgt_of_iff l s Iff.rfl,
    fun l s => exec_blt_of_iff l s Iff.rfl,
    fun a b l s compared => ⟨exec_bgt_of_compared a b l s compared, exec_bgt_of_compared_excluding a b l s compared,
      exec_blt_of_compared a b l s compared⟩⟩

/-- Settles O54: both read CA, which is the unsigned order after a comparison. -/
theorem bgtuBltuBranchOnUnsignedOrder : Obligations.BgtuBltuBranchOnUnsignedOrder :=
  ⟨decode_of_opcodeField_twentyfive, decode_of_opcodeField_twentyseven, fun l s => exec_bgtu_of_iff l s Iff.rfl,
    fun l s => exec_bltu_of_iff l s Iff.rfl,
    fun a b l s compared => ⟨exec_bgtu_of_compared a b l s compared, exec_bltu_of_compared a b l s compared⟩⟩

/-- Settles O55: CMP leaves the flags of the two registers, the first read exactly, and each branch reads them. -/
theorem compareThenBranchDecidesTheRelation : Obligations.CompareThenBranchDecidesTheRelation := by
  intro ra rb l s t exactly includes compares
  cases (exec_cmpReg ra rb s).symm.trans compares
  have compared : (compare ra (s.getReg rb) s).flags = cmpFlags (s.getReg ra) (s.getReg rb) := by
    rw [compare_flags, busValue_of_closed .a ra s ((not_mem_latched s.params .a ra).mp exactly)]
  refine ⟨exec_beq_of_compared _ _ l _ compared, ?_, exec_bgt_of_compared _ _ l _ compared (by rwa [compare_params]),
    exec_bgtu_of_compared _ _ l _ compared, exec_blt_of_compared _ _ l _ compared, exec_bltu_of_compared _ _ l _ compared⟩
  rw [exec_bne_of_compared _ _ l _ compared, ite_not]

end Sys2Proof.Machine
end

section
/-! What every instruction leaves unchanged (spec/10_state.md R14 to R19, spec/20_memory.md R34, spec/42_arith_logic.md R111). What an
instruction that goes on does is said once, as `Effect`; each frame is a case analysis of it. -/

namespace Sys2Proof.Machine

/-! ### The two families of instructions that share one operation -/

/-- The eight instructions that are `aluTwo`: class, operation, destination, bus operand and second operand (R113 to R120). -/
def twoOperand (s : State) (i : Instr) : Option (MbrClass × AluOp × Reg × Reg × Word) :=
  match i with
  | .addImm rd ra c => some (.a, .add, rd, ra, imm5 s.params c)
  | .addReg rd ra rb => some (.a, .add, rd, ra, s.getReg rb)
  | .subImm rd ra c => some (.a, .sub, rd, ra, imm5 s.params c)
  | .subReg rd ra rb => some (.a, .sub, rd, ra, s.getReg rb)
  | .shl rd rs n => some (.b, .shl, rd, rs, shiftCount n)
  | .shr rd rs n => some (.b, .shr, rd, rs, shiftCount n)
  | .and rd ra rb => some (.a, .and, rd, ra, s.getReg rb)
  | .or rd ra rb => some (.a, .or, rd, ra, s.getReg rb)
  | _ => none

/-- JMP and the six conditional branches: whether the transfer is taken, and its label (R141, R147 to R152). -/
def transfer (s : State) (i : Instr) : Option (Bool × Addr) :=
  match i with
  | .jmp l => some (true, l)
  | .beq l => some (s.flags.zr, l)
  | .bne l => some (!s.flags.zr, l)
  | .bgt l => some (s.flags.ng == s.flags.ov && (!s.params.bgtExcludesEqual || !s.flags.zr), l)
  | .bgtu l => some (s.flags.ca && !s.flags.zr, l)
  | .blt l => some (s.flags.ng != s.flags.ov, l)
  | .bltu l => some (!s.flags.ca, l)
  | _ => none

section
variable {s : State} {i : Instr}

theorem exec_of_twoOperand {k : MbrClass} {op : AluOp} {rd ra : Reg} {b : Word} (form : twoOperand s i = some (k, op, rd, ra, b)) :
    exec i s = .next (aluTwo k op rd ra b s) := by
  unfold twoOperand at form
  split at form <;> cases form <;> rfl

/-- The instruction names the destination that `twoOperand` gives. -/
theorem twoOperand_cases {k : MbrClass} {op : AluOp} {rd ra : Reg} {b : Word} (form : twoOperand s i = some (k, op, rd, ra, b)) :
    (∃ c, i = .addImm rd ra c ∨ i = .subImm rd ra c) ∨
      (∃ rb, i = .addReg rd ra rb ∨ i = .subReg rd ra rb ∨ i = .and rd ra rb ∨ i = .or rd ra rb) ∨
      ∃ n, i = .shl rd ra n ∨ i = .shr rd ra n := by
  unfold twoOperand at form
  split at form <;> cases form <;> simp

theorem twoOperand_opcode {k : MbrClass} {op : AluOp} {rd ra : Reg} {b : Word} (form : twoOperand s i = some (k, op, rd, ra, b)) :
    8 ≤ (opcodeOf i).toNat ∧ (opcodeOf i).toNat ≤ 15 := by
  unfold twoOperand at form
  split at form <;> cases form <;> simp [opcodeOf]

theorem exec_of_transfer {taken : Bool} {l : Addr} (form : transfer s i = some (taken, l)) :
    exec i s = .next (branchIf taken l s) := by
  unfold transfer at form
  split at form <;> cases form <;> rfl

theorem transfer_mem {taken : Bool} {l : Addr} (form : transfer s i = some (taken, l)) :
    i ∈ [.jmp l, .bln l, .beq l, .bne l, .bgt l, .bgtu l, .blt l, .bltu l] := by
  unfold transfer at form
  split at form <;> cases form <;> simp

end

/-! ### What an instruction does when it goes on -/

/-- `Effect s i t`: from `s` the instruction `i` goes on to `t`. -/
inductive Effect (s : State) : Instr → State → Prop where
  | movImm (rd : Reg) (c : BitVec 8) : Effect s (.movImm rd c) (s.setReg rd (imm8 s.params c))
  | movReg (rd rs : Reg) : Effect s (.movReg rd rs) (s.setReg rd (s.getReg rs))
  | lda (l : Addr) (v : Word) : Effect s (.lda l) ((s.setMar l).setReg .r7 v)
  | ldr (rd ra : Reg) (o : BitVec 5) (a : Addr) (v : Word) :
      Effect s (.ldr rd ra o) ((endClassB ((afterBus .b ra s).setMar a)).setReg rd v)
  | stra (l : Addr) : Effect s (.stra l) (memWrite l (s.getReg .r7) s)
  | strr (rs ra : Reg) (o : BitVec 5) (a : Addr) :
      Effect s (.strr rs ra o) (memWrite a (busValue .b rs (afterBus .b ra s)) (endClassB (afterBus .b rs (afterBus .b ra s))))
  | push (regs : List Reg) (u : State) (stored : pushAll regs s = .ok u) : Effect s (.push regs) (endClassB u)
  | pop (regs : List Reg) (u : State) (loaded : popAll (popSequence s.params regs) s = .ok u) : Effect s (.pop regs) (endClassB u)
  | alu (i : Instr) (k : MbrClass) (op : AluOp) (rd ra : Reg) (b : Word) (form : twoOperand s i = some (k, op, rd, ra, b)) :
      Effect s i (aluTwo k op rd ra b s)
  | not (rd rs : Reg) : Effect s (.not rd rs) (aluDeliver .not rd (s.getReg rs) 0 s)
  | cmpImm (ra : Reg) (c : BitVec 8) : Effect s (.cmpImm ra c) (compare ra (imm8 s.params c) s)
  | cmpReg (ra rb : Reg) : Effect s (.cmpReg ra rb) (compare ra (s.getReg rb) s)
  | branch (i : Instr) (taken : Bool) (l : Addr) (form : transfer s i = some (taken, l)) : Effect s i (branchIf taken l s)
  | bln (l : Addr) : Effect s (.bln l) ((s.setReg .r6 (s.pc.zeroExtend 16)).setPc l)
  | ret : Effect s .ret (s.setPc (lowAddr (s.getReg .r6)))
  | halt : Effect s .halt s.halt

theorem effect_of_twoOperand {s t : State} {i : Instr} {k : MbrClass} {op : AluOp} {rd ra : Reg} {b : Word} (next : exec i s = .next t)
    (form : twoOperand s i = some (k, op, rd, ra, b)) : Effect s i t := by
  cases (exec_of_twoOperand form).symm.trans next
  exact .alu i k op rd ra b form

theorem effect_of_transfer {s t : State} {i : Instr} {taken : Bool} {l : Addr} (next : exec i s = .next t)
    (form : transfer s i = some (taken, l)) : Effect s i t := by
  cases (exec_of_transfer form).symm.trans next
  exact .branch i taken l form

/-- Whatever goes on does so as `Effect` says. -/
theorem effect_of_exec (i : Instr) (s t : State) (next : exec i s = .next t) : Effect s i t := by
  cases i with
  | movImm rd c => cases (exec_movImm rd c s).symm.trans next; exact .movImm rd c
  | movReg rd rs => cases (exec_movReg rd rs s).symm.trans next; exact .movReg rd rs
  | lda l => obtain ⟨v, -, rfl⟩ := execLda_next l s t next; exact .lda l v
  | ldr rd ra o => obtain ⟨a, v, -, -, rfl⟩ := execLdr_next rd ra o s t next; exact .ldr rd ra o a v
  | stra l => cases Host.Outcome.next.inj next; exact .stra l
  | strr rs ra o => obtain ⟨a, -, rfl⟩ := execStrr_next rs ra o s t next; exact .strr rs ra o a
  | push regs => obtain ⟨u, stored, rfl⟩ := execPush_next regs s t next; exact .push regs u stored
  | pop regs => obtain ⟨u, loaded, rfl⟩ := execPop_next regs s t next; exact .pop regs u loaded
  | not rd rs => cases (exec_not rd rs s).symm.trans next; exact .not rd rs
  | cmpImm ra c => cases (exec_cmpImm ra c s).symm.trans next; exact .cmpImm ra c
  | cmpReg ra rb => cases (exec_cmpReg ra rb s).symm.trans next; exact .cmpReg ra rb
  | bln l => cases (exec_bln l s).symm.trans next; exact .bln l
  | ret => cases (exec_ret s).symm.trans next; exact .ret
  | halt => cases (exec_halt s).symm.trans next; exact .halt
  | addImm | addReg | subImm | subReg | shl | shr | and | or => exact effect_of_twoOperand next rfl
  | jmp | beq | bne | bgt | bgtu | blt | bltu => exact effect_of_transfer next rfl

/-! ### The run state, pc and the flags -/

/-- Settles O11: the iterations of PUSH and POP keep the run state, and no other shared operation names it. -/
theorem onlyHaltChangesTheRunState : Obligations.OnlyHaltChangesTheRunState := by
  intro i s t next
  cases effect_of_exec i s t next with
  | halt => simp
  | push regs u stored =>
    obtain ⟨-, -, -, -, -, halted, -⟩ := pushAll_frame regs s u stored
    simp [halted]
  | pop regs u loaded =>
    obtain ⟨-, -, -, -, -, -, halted, -⟩ := popAll_frame _ s u loaded
    simp [halted]
  | alu i k op rd ra b form =>
    have other : i ≠ .halt := by rintro rfl; cases form
    simp [other]
  | branch i taken l form =>
    have other : i ≠ .halt := by rintro rfl; cases form
    simp [other]
  | _ => simp

/-- Settles O12: a transfer not taken leaves pc alone too. -/
theorem onlyTransfersWriteThePc : Obligations.OnlyTransfersWriteThePc := by
  intro i s t next
  cases effect_of_exec i s t next with
  | bln l => exact .inr (.inl ⟨l, by simp, rfl⟩)
  | ret => exact .inr (.inr rfl)
  | branch i taken l form =>
    cases taken with
    | true => exact .inr (.inl ⟨l, transfer_mem form, rfl⟩)
    | false => exact .inl rfl
  | push regs u stored =>
    obtain ⟨-, pc, -⟩ := pushAll_frame regs s u stored
    exact .inl (by simp [pc])
  | pop regs u loaded =>
    obtain ⟨-, pc, -⟩ := popAll_frame _ s u loaded
    exact .inl (by simp [pc])
  | _ => exact .inl (by simp)

/-- Settles O13: the instructions of opcodes 8 to 16 write the flags through `alu_effects` alone, which `preserve` makes nothing. -/
theorem onlyComparisonsWriteFlags : Obligations.OnlyComparisonsWriteFlags := by
  intro i s t next notCmpImm notCmpReg kept
  cases effect_of_exec i s t next with
  | cmpImm ra c => exact absurd rfl notCmpImm
  | cmpReg ra rb => exact absurd rfl notCmpReg
  | alu i k op rd ra b form =>
    have opcode := twoOperand_opcode form
    exact aluTwo_flags_preserve k op rd ra b s (kept.resolve_right (by omega))
  | not rd rs =>
    have opcode : (opcodeOf (.not rd rs)).toNat = 16 := rfl
    exact aluDeliver_flags_preserve .not rd _ 0 s (kept.resolve_right (by omega))
  | push regs u stored =>
    obtain ⟨-, -, flags, -⟩ := pushAll_frame regs s u stored
    simp [flags]
  | pop regs u loaded =>
    obtain ⟨-, -, flags, -⟩ := popAll_frame _ s u loaded
    simp [flags]
  | _ => simp

/-! ### Memory -/

theorem sameMemory_of_mem (s t : State) (mem : t.mem = s.mem) : SameMemory s t := by
  intro a
  rw [State.wordAt, State.wordAt, mem]

/-- Settles O14: POP's iterations only read, and the instructions left over touch no memory. -/
theorem onlyStoresWriteMemory : Obligations.OnlyStoresWriteMemory := by
  intro i s t next noStore
  apply sameMemory_of_mem
  cases effect_of_exec i s t next with
  | stra l => simp [opcodeOf] at noStore
  | strr rs ra o a => simp [opcodeOf] at noStore
  | push regs u stored => simp [opcodeOf] at noStore
  | pop regs u loaded =>
    obtain ⟨-, -, -, -, -, mem, -⟩ := popAll_frame _ s u loaded
    simp [mem]
  | _ => simp

theorem exec_keeps_wf (i : Instr) (s t : State) (next : exec i s = .next t) (wf : Memory.wf s.mem = true) :
    Memory.wf t.mem = true := by
  cases effect_of_exec i s t next with
  | stra l => exact memWrite_wf l _ s wf
  | strr rs ra o a => exact memWrite_wf a _ _ (by simpa using wf)
  | push regs u stored => simpa using pushAll_wf regs s u stored wf
  | pop regs u loaded =>
    obtain ⟨-, -, -, -, -, mem, -⟩ := popAll_frame _ s u loaded
    simpa [mem] using wf
  | _ => simpa using wf

/-- Settles O21: a step is a stutter or an instruction run on the fetched state, whose memory is the one before. -/
theorem stepKeepsTheInvariant : Obligations.StepKeepsTheInvariant := by
  intro s t inv steps
  obtain ⟨-, rfl⟩ | ⟨-, w, i, -, -, next⟩ := step_next s t steps
  · exact inv
  · exact exec_keeps_wf i (s.fetched w) t next inv

/-! ### IR, MAR, ACC and the parameters -/

/-- Settles O15: the four frames together, instruction by instruction; the opcode excludes the writers. -/
theorem internalRegistersAndParametersFrame : Obligations.InternalRegistersAndParametersFrame := by
  intro i s t next
  cases effect_of_exec i s t next with
  | lda l v => simp [opcodeOf]
  | ldr rd ra o a v => simp [opcodeOf]
  | stra l => simp [opcodeOf]
  | strr rs ra o a => simp [opcodeOf]
  | push regs u stored =>
    obtain ⟨params, -, -, ir, -⟩ := pushAll_frame regs s u stored
    simp [opcodeOf, params, ir]
  | pop regs u loaded =>
    obtain ⟨params, -, -, ir, -⟩ := popAll_frame _ s u loaded
    simp [opcodeOf, params, ir]
  | alu i k op rd ra b form =>
    have opcode := twoOperand_opcode form
    refine ⟨by simp, by simp, by simp, fun outside => ?_⟩
    simp only [List.mem_cons, List.not_mem_nil, or_false] at outside
    omega
  | not rd rs => simp [opcodeOf]
  | cmpImm ra c => simp [opcodeOf]
  | cmpReg ra rb => simp [opcodeOf]
  | _ => simp

/-! ### R7 (R111) -/

theorem mbrActive_of_transparent (p : Config.Params) (k : MbrClass) (transparent : p.mbrModel = .transparent) :
    mbrActive p k = false := by
  simp [mbrActive, transparent]

/-- Settles O39: R7 is written as a destination, which the hypotheses exclude, or by a clobber, which needs an active latch. -/
theorem instructionsOfNoClassKeepR7 : Obligations.InstructionsOfNoClassKeepR7 := by
  intro i s t next noClass notMovImm notMovReg notNot notLdr notAddImm notSubImm notAddReg notSubReg notShl notShr notAnd notOr
  have closed (k : MbrClass) (ofClass : (opcodeOf i).toNat ∉ [0, 1, 4, 16, 17, 18, 19, 22, 23, 24, 25, 26, 27, 28]) :
      mbrActive s.params k = false :=
    mbrActive_of_transparent _ k (noClass.resolve_left ofClass).1
  cases effect_of_exec i s t next with
  | movImm rd c => exact State.getReg_setReg_of_ne _ _ _ _ (fun r7 => notMovImm c (by rw [r7]))
  | movReg rd rs => exact State.getReg_setReg_of_ne _ _ _ _ (fun r7 => notMovReg rs (by rw [r7]))
  | lda l v => simp [opcodeOf] at noClass
  | pop regs u loaded => simp [opcodeOf] at noClass
  | ldr rd ra o a v =>
    rw [State.getReg_setReg_of_ne _ _ _ _ (fun r7 => notLdr ra o (by rw [r7])), endClassB_getReg _ _ (fun _ => by
      simpa using closed .b (by simp [opcodeOf]))]
    simp
  | strr rs ra o a =>
    rw [memWrite_getReg, endClassB_getReg _ _ (fun _ => by simpa using closed .b (by simp [opcodeOf]))]
    simp
  | push regs u stored =>
    obtain ⟨params, -, -, -, -, -, getReg⟩ := pushAll_frame regs s u stored
    rw [endClassB_getReg _ _ (fun _ => by rw [params]; exact closed .b (by simp [opcodeOf]))]
    exact getReg .r7 (by decide)
  | alu i k op rd ra b form =>
    have opcode := twoOperand_opcode form
    have destination : Reg.r7 ≠ rd := by
      rintro rfl
      obtain ⟨c, rfl | rfl⟩ | ⟨rb, rfl | rfl | rfl | rfl⟩ | ⟨n, rfl | rfl⟩ := twoOperand_cases form
      · exact notAddImm ra c rfl
      · exact notSubImm ra c rfl
      · exact notAddReg ra rb rfl
      · exact notSubReg ra rb rfl
      · exact notAnd ra rb rfl
      · exact notOr ra rb rfl
      · exact notShl ra n rfl
      · exact notShr ra n rfl
    refine aluTwo_getReg_of_ne k op rd ra .r7 b s destination (fun _ => closed k ?_)
    simp only [List.mem_cons, List.not_mem_nil, or_false]
    omega
  | not rd rs => rw [aluDeliver_getReg, if_neg (fun r7 => notNot rs (by rw [r7]))]
  | cmpImm ra c => exact compare_getReg _ _ _ _ (fun _ => closed .a (by simp [opcodeOf]))
  | cmpReg ra rb => exact compare_getReg _ _ _ _ (fun _ => closed .a (by simp [opcodeOf]))
  | bln l => exact State.getReg_setReg_of_ne s .r6 .r7 _ (by decide)
  | _ => simp

/-! ### ACC (R17) -/

theorem acc_of_twoOperand {s t : State} {i : Instr} {k : MbrClass} {op : AluOp} {rd ra : Reg} {b : Word}
    (form : twoOperand s i = some (k, op, rd, ra, b)) (next : exec i s = .next t) : t.acc = t.getReg rd := by
  cases (exec_of_twoOperand form).symm.trans next
  rw [aluTwo_acc, aluTwo_getReg_self]

/-- Settles O47: `aluDeliver` writes one word to ACC and to the destination. -/
theorem accumulatorHoldsTheAluOutput : Obligations.AccumulatorHoldsTheAluOutput := by
  refine ⟨fun i s t next rd form => ?_, fun ra rb s t next => ?_, fun ra c s t next => ?_⟩
  · obtain ⟨ra, c, form⟩ | ⟨ra, rb, form⟩ | ⟨rs, n, form⟩ | ⟨rs, rfl⟩ := form
    · obtain rfl | rfl := form <;> exact acc_of_twoOperand rfl next
    · obtain rfl | rfl | rfl | rfl := form <;> exact acc_of_twoOperand rfl next
    · obtain rfl | rfl := form <;> exact acc_of_twoOperand rfl next
    · cases (exec_not rd rs s).symm.trans next
      rw [aluDeliver_acc, aluDeliver_getReg, if_pos rfl]
  · cases (exec_cmpReg ra rb s).symm.trans next
    exact compare_acc ra _ s
  · cases (exec_cmpImm ra c s).symm.trans next
    exact compare_acc ra _ s

/-! ### Refusals -/

theorem exec_ne_refused (i : Instr) (s : State) (r : Refusal) : exec i s ≠ .refused r := by
  intro refuses
  cases i with
  | lda l =>
    simp only [exec, execLda] at refuses
    split at refuses <;> cases refuses
  | ldr rd ra o =>
    simp only [exec, execLdr] at refuses
    split at refuses
    · split at refuses <;> cases refuses
    · cases refuses
  | strr rs ra o =>
    simp only [exec, execStrr] at refuses
    split at refuses <;> cases refuses
  | push regs =>
    simp only [exec, execPush] at refuses
    split at refuses
    · cases refuses
    · split at refuses <;> cases refuses
  | pop regs =>
    simp only [exec, execPop] at refuses
    split at refuses
    · cases refuses
    · split at refuses <;> cases refuses
  | _ => cases refuses

/-- Settles O17: a step answers a next state, a fault or what an instruction's meaning answers. -/
theorem noStepIsRefused : Obligations.NoStepIsRefused := by
  intro s r refuses
  unfold step at refuses
  split at refuses
  · cases refuses
  · split at refuses
    · cases refuses
    · split at refuses
      · exact exec_ne_refused _ _ r refuses
      · cases refuses
      · cases refuses

end Sys2Proof.Machine
end

section
/-! IR, MAR and ACC cannot be observed (spec/10_state.md R17). Each operation makes its visible part from the visible part it finds: the
lemmas `visible_<operation>` say so, and a step from `s.visible` is then observed as one from `s`. -/

namespace Sys2Proof.Machine

/-! ### What reads only the visible part -/

@[simp] theorem State.visible_params (s : State) : s.visible.params = s.params := rfl
@[simp] theorem State.visible_pc (s : State) : s.visible.pc = s.pc := rfl
@[simp] theorem State.visible_flags (s : State) : s.visible.flags = s.flags := rfl
@[simp] theorem State.visible_mem (s : State) : s.visible.mem = s.mem := rfl
@[simp] theorem State.visible_halted (s : State) : s.visible.halted = s.halted := rfl
@[simp] theorem State.visible_draws (s : State) : s.visible.draws = s.draws := rfl
@[simp] theorem State.visible_getReg (s : State) (q : Reg) : s.visible.getReg q = s.getReg q := rfl
@[simp] theorem State.visible_wordAt (s : State) (a : Addr) : s.visible.wordAt a = s.wordAt a := rfl
@[simp] theorem State.visible_visible (s : State) : s.visible.visible = s.visible := rfl
@[simp] theorem busValue_visible (k : MbrClass) (r : Reg) (s : State) : busValue k r s.visible = busValue k r s := rfl

/-! ### The visible part after each operation -/

@[simp] theorem visible_setReg (s : State) (r : Reg) (v : Word) : (s.setReg r v).visible = s.visible.setReg r v := rfl
@[simp] theorem visible_setPc (s : State) (a : Addr) : (s.setPc a).visible = s.visible.setPc a := rfl
@[simp] theorem visible_setFlags (s : State) (f : Flags) : (s.setFlags f).visible = s.visible.setFlags f := rfl
@[simp] theorem visible_setAcc (s : State) (v : Word) : (s.setAcc v).visible = s.visible := rfl
@[simp] theorem visible_setMar (s : State) (a : Addr) : (s.setMar a).visible = s.visible := rfl
@[simp] theorem visible_halt (s : State) : s.halt.visible = s.visible.halt := rfl
@[simp] theorem visible_openAcc (s : State) : s.openAcc.visible = s.visible.drew 1 := rfl
@[simp] theorem visible_fetched (s : State) (w : Word) : (s.fetched w).visible = s.visible.setPc (s.pc + 1) := rfl

@[simp] theorem visible_memWrite (a : Addr) (v : Word) (s : State) :
    (memWrite a v s).visible = s.visible.setMem (Memory.write s.mem a.toNat v) := rfl

@[simp] theorem visible_afterBus (k : MbrClass) (r : Reg) (s : State) : (afterBus k r s).visible = afterBus k r s.visible := by
  unfold afterBus
  rw [State.visible_params]
  split <;> rfl

@[simp] theorem visible_clobberMbr (k : MbrClass) (s : State) : (clobberMbr k s).visible = clobberMbr k s.visible := by
  unfold clobberMbr
  rw [State.visible_params]
  split <;> rfl

@[simp] theorem visible_endClassB (s : State) : (endClassB s).visible = clobberMbr .b (s.visible.drew 1) := by
  simp [endClassB]

@[simp] theorem visible_aluEffects (op : AluOp) (a b r : Word) (s : State) :
    (aluEffects op a b r s).visible = aluEffects op a b r s.visible := by
  unfold aluEffects
  rw [State.visible_params]
  split
  · rfl
  · cases op <;> rfl
  · rfl

@[simp] theorem visible_aluDeliver (op : AluOp) (rd : Reg) (a b : Word) (s : State) :
    (aluDeliver op rd a b s).visible = aluEffects op a b (aluResult op a b) (s.visible.setReg rd (aluResult op a b)) := by
  simp [aluDeliver]

@[simp] theorem visible_compare (ra : Reg) (b : Word) (s : State) :
    (compare ra b s).visible = clobberMbr .a ((afterBus .a ra s.visible).setFlags (cmpFlags (busValue .a ra s) b)) := by
  simp [compare]

@[simp] theorem visible_branchIf (taken : Bool) (l : Addr) (s : State) :
    (branchIf taken l s).visible = branchIf taken l s.visible := by
  cases taken <;> rfl

/-! ### Observations -/

/-- What a program can see of an outcome: the visible part of the next state, or that the machine stopped. -/
def observed (o : Host.Outcome State Fault Refusal) : Host.Outcome State Unit Refusal :=
  match o with
  | .next t => .next t.visible
  | .fault _ => .fault ()
  | .refused r => .refused r

@[simp] theorem observed_next (t : State) : observed (.next t) = .next t.visible := rfl
@[simp] theorem observed_fault (f : Fault) : observed (.fault f) = .fault () := rfl

theorem next_of_observed {o : Host.Outcome State Fault Refusal} {t : State} (next : observed o = .next t.visible) :
    ∃ u, o = .next u ∧ t.visible = u.visible := by
  cases o with
  | next u => exact ⟨u, rfl, (Host.Outcome.next.inj next).symm⟩
  | fault f => cases next
  | refused r => cases next

theorem fault_of_observed {o : Host.Outcome State Fault Refusal} (stops : observed o = .fault ()) : ∃ f, o = .fault f := by
  cases o with
  | next u => cases stops
  | fault f => exact ⟨f, rfl⟩
  | refused r => cases stops

/-- What a program can see of the iterations of PUSH and POP. -/
def seen (x : Except Fault State) : Option State :=
  match x with
  | .ok t => some t.visible
  | .error _ => none

/-- Iterations that make their visible result from the visible part they find still do so after iterations seen alike. -/
theorem seen_bind (f : State → Except Fault State) (blind : ∀ s, seen (f s.visible) = seen (f s)) (x y : Except Fault State)
    (alike : seen x = seen y) : seen (x.bind f) = seen (y.bind f) := by
  cases x <;> cases y
  case error.error => rfl
  case error.ok => cases alike
  case ok.error => cases alike
  case ok.ok u v =>
    have visible : u.visible = v.visible := Option.some.inj alike
    show seen (f u) = seen (f v)
    rw [← blind u, visible, blind v]

theorem seen_pushOne (r : Reg) (s : State) : seen (pushOne r s.visible) = seen (pushOne r s) := by
  unfold pushOne
  rw [State.visible_params, State.visible_getReg]
  cases effAddr s.params (pushAt s.params (s.getReg .r5)) <;> simp [seen]

theorem seen_popOne (r : Reg) (s : State) : seen (popOne r s.visible) = seen (popOne r s) := by
  unfold popOne memRead
  rw [State.visible_params, State.visible_getReg]
  cases effAddr s.params (popAt s.params (s.getReg .r5)) with
  | none => rfl
  | some a =>
    cases word : s.wordAt a <;> simp [seen, word]

theorem pushAll_cons (r : Reg) (rest : List Reg) (s : State) : pushAll (r :: rest) s = (pushOne r s).bind (pushAll rest) := by
  rw [pushAll]
  cases pushOne r s <;> rfl

theorem popAll_cons (r : Reg) (rest : List Reg) (s : State) : popAll (r :: rest) s = (popOne r s).bind (popAll rest) := by
  rw [popAll]
  cases popOne r s <;> rfl

theorem seen_pushAll (regs : List Reg) (s : State) : seen (pushAll regs s.visible) = seen (pushAll regs s) := by
  induction regs generalizing s with
  | nil => rfl
  | cons r rest ih =>
    rw [pushAll_cons, pushAll_cons]
    exact seen_bind _ ih _ _ (seen_pushOne r s)

theorem seen_popAll (regs : List Reg) (s : State) : seen (popAll regs s.visible) = seen (popAll regs s) := by
  induction regs generalizing s with
  | nil => rfl
  | cons r rest ih =>
    rw [popAll_cons, popAll_cons]
    exact seen_bind _ ih _ _ (seen_popOne r s)

/-! ### The instructions that can stop -/

theorem observed_execLda (l : Addr) (s : State) : observed (execLda l s.visible) = observed (execLda l s) := by
  unfold execLda memRead
  cases word : s.wordAt l <;> simp [word]

theorem observed_execLdr (rd ra : Reg) (o : BitVec 5) (s : State) :
    observed (execLdr rd ra o s.visible) = observed (execLdr rd ra o s) := by
  unfold execLdr memRead
  rw [State.visible_params, busValue_visible]
  cases effAddr s.params (busValue .b ra s + offset o) with
  | none => rfl
  | some a => cases word : s.wordAt a <;> simp [word]

theorem observed_execStrr (rs ra : Reg) (o : BitVec 5) (s : State) :
    observed (execStrr rs ra o s.visible) = observed (execStrr rs ra o s) := by
  unfold execStrr
  rw [State.visible_params, busValue_visible]
  cases effAddr s.params (busValue .b ra s + offset o) with
  | none => rfl
  | some a => simp [← visible_afterBus]

/-- How PUSH and POP end after their iterations (R96, R97). -/
def stackEnd (x : Except Fault State) : Host.Outcome State Fault Refusal :=
  match x with
  | .ok t => .next (endClassB t)
  | .error f => .fault f

theorem exec_push_cons (r : Reg) (rest : List Reg) (s : State) : exec (.push (r :: rest)) s = stackEnd (pushAll (r :: rest) s) := by
  simp only [exec, execPush]
  cases pushAll (r :: rest) s <;> rfl

theorem exec_pop_cons (r : Reg) (rest : List Reg) (s : State) :
    exec (.pop (r :: rest)) s = stackEnd (popAll (popSequence s.params (r :: rest)) s) := by
  simp only [exec, execPop]
  cases popAll (popSequence s.params (r :: rest)) s <;> rfl

theorem observed_stackEnd (x y : Except Fault State) (alike : seen x = seen y) : observed (stackEnd x) = observed (stackEnd y) := by
  cases x <;> cases y
  case error.error => rfl
  case error.ok => cases alike
  case ok.error => cases alike
  case ok.ok u v =>
    have visible : u.visible = v.visible := Option.some.inj alike
    simp [stackEnd, visible]

theorem observed_exec_push (regs : List Reg) (s : State) : observed (exec (.push regs) s.visible) = observed (exec (.push regs) s) := by
  cases regs with
  | nil => rfl
  | cons r rest =>
    rw [exec_push_cons, exec_push_cons]
    exact observed_stackEnd _ _ (seen_pushAll (r :: rest) s)

theorem observed_exec_pop (regs : List Reg) (s : State) : observed (exec (.pop regs) s.visible) = observed (exec (.pop regs) s) := by
  cases regs with
  | nil => rfl
  | cons r rest =>
    rw [exec_pop_cons, exec_pop_cons]
    exact observed_stackEnd _ _ (seen_popAll (popSequence s.params (r :: rest)) s)

/-! ### Every instruction, and the step -/

theorem observed_of_twoOperand {s : State} {i : Instr} {k : MbrClass} {op : AluOp} {rd ra : Reg} {b : Word}
    (form : twoOperand s i = some (k, op, rd, ra, b)) (blind : twoOperand s.visible i = twoOperand s i) :
    observed (exec i s.visible) = observed (exec i s) := by
  rw [exec_of_twoOperand form, exec_of_twoOperand (blind.trans form)]
  simp [aluTwo]

theorem observed_of_transfer {s : State} {i : Instr} {taken : Bool} {l : Addr}
    (form : transfer s i = some (taken, l)) (blind : transfer s.visible i = transfer s i) :
    observed (exec i s.visible) = observed (exec i s) := by
  rw [exec_of_transfer form, exec_of_transfer (blind.trans form)]
  simp

theorem observed_exec (i : Instr) (s : State) : observed (exec i s.visible) = observed (exec i s) := by
  cases i with
  | movImm rd c => rfl
  | movReg rd rs => rfl
  | lda l => exact observed_execLda l s
  | ldr rd ra o => exact observed_execLdr rd ra o s
  | stra l => rfl
  | strr rs ra o => exact observed_execStrr rs ra o s
  | push regs => exact observed_exec_push regs s
  | pop regs => exact observed_exec_pop regs s
  | not rd rs => simp [exec_not]
  | cmpImm ra c => simp [exec_cmpImm]
  | cmpReg ra rb => simp [exec_cmpReg]
  | bln l => rfl
  | ret => rfl
  | halt => rfl
  | addImm | addReg | subImm | subReg | shl | shr | and | or => exact observed_of_twoOperand rfl rfl
  | jmp | beq | bne | bgt | bgtu | blt | bltu => exact observed_of_transfer rfl rfl

theorem observed_step (s : State) : observed (step s.visible) = observed (step s) := by
  cases halted : s.halted with
  | true => rw [step_of_halted s halted, step_of_halted s.visible halted]; rfl
  | false =>
    cases word : s.wordAt s.pc with
    | none => rw [step_of_no_word s halted word, step_of_no_word s.visible halted word]; rfl
    | some w =>
      cases decoded : decode w with
      | instr i =>
        rw [step_of_decode_instr s w halted word i decoded, step_of_decode_instr s.visible w halted word i decoded,
          ← observed_exec i (s.fetched w), ← observed_exec i (s.visible.fetched w)]
        rfl
      | illegalOpcode v =>
        rw [step_of_decode_illegal s w halted word v decoded, step_of_decode_illegal s.visible w halted word v decoded]
        rfl
      | reservedEncoding v =>
        rw [step_of_decode_reserved s w halted word v decoded, step_of_decode_reserved s.visible w halted word v decoded]
        rfl

/-- Settles O16: both steps are observed as the one from the common visible part. -/
theorem internalRegistersCannotBeObserved : Obligations.InternalRegistersCannotBeObserved := by
  intro s t same
  have alike : observed (step s) = observed (step t) := by
    rw [← observed_step s, same, observed_step t]
  constructor
  · intro s' next
    exact next_of_observed (by rw [← alike, next, observed_next])
  · rintro ⟨f, stops⟩
    exact fault_of_observed (by rw [← alike, stops, observed_fault])

end Sys2Proof.Machine
end

section
/-! Loads and stores of one word (spec/41_memory_ops.md R91 to R94), and a store over the next instruction (spec/20_memory.md R40). -/

namespace Sys2Proof.Machine

/-! ### The next state of each, where its address is accepted and its word has a value -/

theorem exec_lda_of_word (l : Addr) (s : State) (v : Word) (word : s.wordAt l = some v) :
    exec (.lda l) s = .next ((s.setMar l).setReg .r7 v) := by
  simp [exec, execLda, memRead_of_some l s v word]

theorem exec_lda_of_no_word (l : Addr) (s : State) (none : s.wordAt l = none) :
    exec (.lda l) s = .fault (.unsetRead l (s.setMar l)) := by
  simp [exec, execLda, memRead_of_none l s none]

theorem exec_stra (l : Addr) (s : State) : exec (.stra l) s = .next (memWrite l (s.getReg .r7) s) := rfl

section
variable (rd ra : Reg) (o : BitVec 5) (s : State) (a : Addr) (addr : effAddr s.params (busValue .b ra s + offset o) = some a)
include addr

theorem exec_ldr_of_word (v : Word) (word : s.wordAt a = some v) :
    exec (.ldr rd ra o) s = .next ((endClassB ((afterBus .b ra s).setMar a)).setReg rd v) := by
  simp [exec, execLdr, addr, memRead, word]

theorem exec_ldr_of_no_word (none : s.wordAt a = none) :
    exec (.ldr rd ra o) s = .fault (.unsetRead a ((afterBus .b ra s).setMar a)) := by
  simp [exec, execLdr, addr, memRead, none]

theorem exec_strr_of_addr : exec (.strr rd ra o) s =
    .next (memWrite a (busValue .b rd (afterBus .b ra s)) (endClassB (afterBus .b rd (afterBus .b ra s)))) := by
  simp [exec, execStrr, addr]

end

/-- The source of STRR is stored exactly unless it is R7 under the latch. -/
theorem strr_source_of_closed (rs ra : Reg) (s : State) (outside : rs ∉ latched s.params .b) :
    busValue .b rs (afterBus .b ra s) = s.getReg rs := by
  rw [busValue_of_closed .b rs _ (by simpa using (not_mem_latched s.params .b rs).mp outside), afterBus_getReg]

/-! ### Loads -/

/-- Settles O28: the next state is `s` with MAR at the label and the word in R7. -/
theorem ldaLoadsTheWordIntoR7 : Obligations.LdaLoadsTheWordIntoR7 :=
  ⟨decode_of_opcodeField_two,
    fun l s v word => ⟨_, exec_lda_of_word l s v word, State.getReg_setReg_self _ .r7 v, rfl,
      State.setReg_sameRegsBut (s.setMar l) .r7 v, fun _ => rfl, rfl, rfl, rfl⟩,
    fun l s none => ⟨_, exec_lda_of_no_word l s none⟩⟩

/-- Settles O29: the destination is written after the latch is clobbered, so it holds the word exactly. -/
theorem ldrLoadsThroughTheRegister : Obligations.LdrLoadsThroughTheRegister := by
  refine ⟨fun rd ra o s a v addr word => ⟨_, exec_ldr_of_word rd ra o s a addr v word, State.getReg_setReg_self _ rd v, by simp,
    fun q outside => ?_, fun b => by simp, by simp, by simp, by simp⟩,
    fun rd ra o s a addr none => ⟨_, exec_ldr_of_no_word rd ra o s a addr none⟩⟩
  rw [List.mem_cons, not_or] at outside
  obtain ⟨notDestination, notLatched⟩ := outside
  rw [State.getReg_setReg_of_ne _ _ _ _ notDestination,
    endClassB_getReg _ _ (by simpa using (not_mem_latched s.params .b q).mp notLatched)]
  simp

/-! ### Stores -/

/-- Settles O30: STRA is a single `MemWrite`. -/
theorem straStoresR7 : Obligations.StraStoresR7 :=
  fun l s => ⟨_, exec_stra l s, memWrite_wordAt_self l _ s, memWrite_mar l _ s, memWrite_sameMemoryBut l _ s,
    fun q _ => memWrite_getReg l _ s q, memWrite_flags l _ s, memWrite_pc l _ s, memWrite_halted l _ s⟩

/-- Settles O31: the write comes last, and reading over the bus and clobbering the latch touch no memory. -/
theorem strrStoresThroughTheRegister : Obligations.StrrStoresThroughTheRegister := by
  intro rs ra o s a addr
  refine ⟨_, exec_strr_of_addr rs ra o s a addr, ⟨_, memWrite_wordAt_self a _ _⟩, fun outside => ?_, memWrite_mar a _ _,
    fun b other => ?_, fun q outside => ?_, by simp, by simp, by simp⟩
  · rw [memWrite_wordAt_self, strr_source_of_closed rs ra s outside]
  · rw [memWrite_sameMemoryBut a _ _ b other]
    simp
  · rw [memWrite_getReg, endClassB_getReg _ _ (by simpa using (not_mem_latched s.params .b q).mp outside)]
    simp

end Sys2Proof.Machine
end


section
/-! PUSH (spec/41_memory_ops.md R95, R96). Iteration j finds R5 moved by j words, so its address, the slot j, is fixed by the state PUSH
begins in; and up to 2048 slots are different, so no iteration overwrites an earlier one. -/

namespace Sys2Proof.Machine

/-! ### R5 and the address in each iteration -/

/-- R5 as iteration `j` of a PUSH from `s` finds it. -/
def pushSp (s : State) (j : Nat) : Word := s.getReg .r5 + BitVec.ofNat 16 j * pushDelta s.params

/-- The address iteration `j` of a PUSH from `s` stores at, if `ADDR_HIGH` accepts it. -/
def slot (s : State) (j : Nat) : Option Addr := effAddr s.params (pushAt s.params (pushSp s j))

theorem pushSp_zero (s : State) : pushSp s 0 = s.getReg .r5 := by
  simp [pushSp]

theorem slot_zero (s : State) : slot s 0 = effAddr s.params (pushAt s.params (s.getReg .r5)) := by
  rw [slot, pushSp_zero]

/-- From a state whose R5 has moved by one word, each iteration finds what the next one finds from `s`. -/
theorem pushSp_of_moved (s u : State) (params : u.params = s.params) (moved : u.getReg .r5 = s.getReg .r5 + pushDelta s.params)
    (j : Nat) : pushSp u j = pushSp s (j + 1) := by
  have succ : BitVec.ofNat 16 (j + 1) = BitVec.ofNat 16 j + 1 := BitVec.ofNat_add j 1
  rw [pushSp, pushSp, params, moved, succ]
  ring

theorem slot_of_moved (s u : State) (params : u.params = s.params) (moved : u.getReg .r5 = s.getReg .r5 + pushDelta s.params)
    (j : Nat) : slot u j = slot s (j + 1) := by
  rw [slot, slot, params, pushSp_of_moved s u params moved]

theorem lowAddr_of_effAddr (p : Config.Params) (v : Word) (a : Addr) (accepted : effAddr p v = some a) : lowAddr v = a := by
  unfold effAddr at accepted
  split at accepted
  · exact Option.some.inj accepted
  · split at accepted
    · exact Option.some.inj accepted
    · cases accepted

/-- The address of iteration `j` is `j` words from that of the first. -/
theorem pushAt_pushSp (s : State) (j : Nat) :
    pushAt s.params (pushSp s j) = pushAt s.params (s.getReg .r5) + BitVec.ofNat 16 j * pushDelta s.params := by
  unfold pushAt pushSp
  split <;> ring

theorem pushDelta_cases (p : Config.Params) : pushDelta p = -1 ∨ pushDelta p = 1 := by
  unfold pushDelta
  split
  · exact .inl rfl
  · exact .inr rfl

/-- Fewer than 2048 words apart, two words have different low addresses. -/
theorem lowAddr_add_ne (x : Word) (i j : Nat) (before : i < j) (near : j < 2048) :
    lowAddr (x + BitVec.ofNat 16 i) ≠ lowAddr (x + BitVec.ofNat 16 j) := by
  intro same
  rw [← BitVec.toNat_inj, lowAddr_toNat, lowAddr_toNat, BitVec.toNat_add, BitVec.toNat_add, BitVec.toNat_ofNat,
    BitVec.toNat_ofNat] at same
  omega

/-- Fewer than 2048 iterations apart, two slots are different. -/
theorem slot_ne (s : State) (i j : Nat) (a : Addr) (before : i < j) (near : j < 2048) (first : slot s i = some a) :
    slot s j ≠ some a := by
  intro second
  have same := (lowAddr_of_effAddr _ _ a first).trans (lowAddr_of_effAddr _ _ a second).symm
  rw [pushAt_pushSp, pushAt_pushSp] at same
  obtain down | up := pushDelta_cases s.params
  · rw [down] at same
    have mirrored (m n : Nat) : pushAt s.params (s.getReg .r5) + BitVec.ofNat 16 m * -1 =
        (pushAt s.params (s.getReg .r5) - BitVec.ofNat 16 m - BitVec.ofNat 16 n) + BitVec.ofNat 16 n := by ring
    rw [mirrored i j, mirrored j i, sub_right_comm] at same
    exact lowAddr_add_ne _ i j before near same.symm
  · rw [up, mul_one, mul_one] at same
    exact lowAddr_add_ne _ i j before near same

/-! ### What the iterations of PUSH do -/

/-- The state `t` after pushing `regs` from `s`: R5, the words stored and the addresses left alone. -/
structure Pushed (regs : List Reg) (s t : State) : Prop where
  sp : t.getReg .r5 = pushSp s regs.length
  stored : ∀ j r a, regs[j]? = some r → slot s j = some a →
    ∃ v, t.wordAt a = some v ∧ (r ∉ latched s.params .b → v = if r = .r5 then pushSp s j else s.getReg r)
  others : ∀ b, (∀ j, j < regs.length → slot s j ≠ some b) → t.wordAt b = s.wordAt b

/-- The state after one iteration at the address `a`. -/
def afterPush (r : Reg) (a : Addr) (s : State) : State :=
  memWrite a (busValue .b r s) ((afterBus .b r s).setReg .r5 (s.getReg .r5 + pushDelta s.params))

@[simp] theorem afterPush_params (r : Reg) (a : Addr) (s : State) : (afterPush r a s).params = s.params := by simp [afterPush]

theorem afterPush_sp (r : Reg) (a : Addr) (s : State) : (afterPush r a s).getReg .r5 = s.getReg .r5 + pushDelta s.params := by
  rw [afterPush, memWrite_getReg, State.getReg_setReg_self]

theorem afterPush_getReg (r q : Reg) (a : Addr) (s : State) (other : q ≠ .r5) : (afterPush r a s).getReg q = s.getReg q := by
  rw [afterPush, memWrite_getReg, State.getReg_setReg_of_ne _ _ _ _ other, afterBus_getReg]

theorem afterPush_wordAt (r : Reg) (a b : Addr) (s : State) :
    (afterPush r a s).wordAt b = if b = a then some (busValue .b r s) else s.wordAt b := by
  rw [afterPush, memWrite_wordAt, State.setReg_wordAt, afterBus_wordAt]

theorem slot_afterPush (r : Reg) (a : Addr) (s : State) (j : Nat) : slot (afterPush r a s) j = slot s (j + 1) :=
  slot_of_moved s _ (afterPush_params r a s) (afterPush_sp r a s) j

theorem pushSp_afterPush (r : Reg) (a : Addr) (s : State) (j : Nat) : pushSp (afterPush r a s) j = pushSp s (j + 1) :=
  pushSp_of_moved s _ (afterPush_params r a s) (afterPush_sp r a s) j

/-- Iterations of PUSH that went on went on from the first one. -/
theorem pushAll_cons_ok (r : Reg) (rest : List Reg) (s t : State) (pushes : pushAll (r :: rest) s = .ok t) :
    ∃ a, slot s 0 = some a ∧ pushAll rest (afterPush r a s) = .ok t := by
  rw [pushAll_cons] at pushes
  cases one : pushOne r s with
  | error f => rw [one] at pushes; cases pushes
  | ok u =>
    rw [one] at pushes
    obtain ⟨a, addr, rfl⟩ := pushOne_ok r s u one
    exact ⟨a, (slot_zero s).trans addr, pushes⟩

/-- Where every slot is an address, no iteration stops. -/
theorem pushAll_of_slots (regs : List Reg) (s : State) (slots : ∀ j, j < regs.length → (slot s j).isSome = true) :
    ∃ t, pushAll regs s = .ok t := by
  induction regs generalizing s with
  | nil => exact ⟨s, rfl⟩
  | cons r rest ih =>
    obtain ⟨a, addr⟩ := Option.isSome_iff_exists.mp (slots 0 (Nat.succ_pos _))
    rw [pushAll_cons, pushOne_of_addr r s a (slot_zero s ▸ addr)]
    refine ih (afterPush r a s) fun j inRest => ?_
    rw [slot_afterPush]
    exact slots (j + 1) (Nat.succ_lt_succ inRest)

/-- Iterations of PUSH that went on did what `Pushed` says: the first word stays, since its slot is no later one. -/
theorem pushed_of_pushAll (regs : List Reg) (s t : State) (short : regs.length ≤ 2048) (pushes : pushAll regs s = .ok t) :
    Pushed regs s t := by
  induction regs generalizing s with
  | nil =>
    cases pushes
    exact ⟨(pushSp_zero _).symm, fun j r a atJ => by simp at atJ, fun b _ => rfl⟩
  | cons r rest ih =>
    rw [List.length_cons] at short
    obtain ⟨a, addr, restPushes⟩ := pushAll_cons_ok r rest s t pushes
    obtain ⟨sp, stored, others⟩ := ih (afterPush r a s) (by omega) restPushes
    refine ⟨?_, fun j q b atJ slotJ => ?_, fun b free => ?_⟩
    · rw [sp, pushSp_afterPush, List.length_cons]
    · cases j with
      | zero =>
        cases atJ
        cases addr.symm.trans slotJ
        have kept : t.wordAt a = some (busValue .b r s) := by
          rw [others a fun j inRest => by rw [slot_afterPush]; exact slot_ne s 0 (j + 1) a (by omega) (by omega) addr,
            afterPush_wordAt, if_pos rfl]
        refine ⟨_, kept, fun outside => ?_⟩
        rw [busValue_of_closed .b r s ((not_mem_latched s.params .b r).mp outside), pushSp_zero]
        split
        · next r5 => rw [r5]
        · rfl
      | succ j =>
        obtain ⟨v, word, exactly⟩ := stored j q b atJ (by rwa [slot_afterPush])
        refine ⟨v, word, fun outside => ?_⟩
        rw [exactly (by rwa [afterPush_params]), pushSp_afterPush]
        split
        · rfl
        · next other => exact afterPush_getReg r q a s other
    · rw [others b fun j inRest => by rw [slot_afterPush]; exact free (j + 1) (Nat.succ_lt_succ inRest), afterPush_wordAt,
        if_neg]
      rintro rfl
      exact free 0 (Nat.succ_pos _) addr

/-! ### PUSH -/

theorem operandCountOk_iff (regs : List Reg) : operandCountOk regs = true ↔ regs ≠ [] ∧ regs.length ≤ 3 := by
  simp [operandCountOk, Nat.one_le_iff_ne_zero]

theorem exec_push_of_pushAll (regs : List Reg) (s u : State) (nonempty : regs ≠ []) (pushes : pushAll regs s = .ok u) :
    exec (.push regs) s = .next (endClassB u) := by
  obtain ⟨r, rest, rfl⟩ := List.exists_cons_of_ne_nil nonempty
  rw [exec_push_cons, pushes]
  rfl

/-- PUSH whose slots are addresses completes, and its iterations did what `Pushed` says. -/
theorem exec_push_of_slots (regs : List Reg) (s : State) (wellFormed : WellFormed (.push regs) = true)
    (slots : ∀ j, j < regs.length → (slot s j).isSome = true) :
    ∃ u, exec (.push regs) s = .next (endClassB u) ∧ pushAll regs s = .ok u ∧ Pushed regs s u := by
  obtain ⟨nonempty, short⟩ := (operandCountOk_iff regs).mp wellFormed
  obtain ⟨u, pushes⟩ := pushAll_of_slots regs s slots
  exact ⟨u, exec_push_of_pushAll regs s u nonempty pushes, pushes, pushed_of_pushAll regs s u (by omega) pushes⟩

/-- The iterations and the clobber at the end reach R5 and, where the latch is in use, R7. -/
theorem push_sameRegsBut (regs : List Reg) (s u : State) (pushes : pushAll regs s = .ok u) :
    SameRegsBut (.r5 :: latched s.params .b) s (endClassB u) := by
  obtain ⟨params, -, -, -, -, -, getReg⟩ := pushAll_frame regs s u pushes
  intro q outside
  rw [List.mem_cons, not_or] at outside
  obtain ⟨notSp, notLatched⟩ := outside
  rw [endClassB_getReg u q (params ▸ (not_mem_latched s.params .b q).mp notLatched), getReg q notSp]

/-- Settles O32: what `Pushed` says of the iterations, and the clobber at the end reaches R7 alone. -/
theorem pushStoresEachRegisterInOrder : Obligations.PushStoresEachRegisterInOrder := by
  intro regs s wellFormed slots
  obtain ⟨u, completes, pushes, sp, stored, others⟩ := exec_push_of_slots regs s wellFormed slots
  obtain ⟨-, pc, flags, -, -, halted, -⟩ := pushAll_frame regs s u pushes
  refine ⟨endClassB u, completes, ?_, fun j r a atJ outside slotJ => ?_, fun b free => ?_, push_sameRegsBut regs s u pushes,
    by simp [flags], by simp [pc], by simp [halted]⟩
  · rw [endClassB_getReg u .r5 (by simp)]
    exact sp
  · obtain ⟨v, word, exactly⟩ := stored j r a atJ slotJ
    rw [endClassB_wordAt, word, exactly outside]
    rfl
  · rw [endClassB_wordAt]
    exact others b free

/-! ### The default stack -/

theorem slot_of_default (s : State) (stack : s.params.stack = defaultStack) (ignore : s.params.addrHigh = .ignore) (j : Nat) :
    slot s j = some (lowAddr (s.getReg .r5 - BitVec.ofNat 16 (j + 1))) := by
  have down : pushAt s.params (pushSp s j) = s.getReg .r5 - BitVec.ofNat 16 (j + 1) := by
    have succ : BitVec.ofNat 16 (j + 1) = BitVec.ofNat 16 j + 1 := BitVec.ofNat_add j 1
    rw [pushAt_pushSp, succ]
    simp only [pushAt, pushDelta, stack, defaultStack]
    ring
  rw [slot, down, effAddr_of_ignore _ _ ignore]

/-- Settles O35: slot j is j + 1 words below R5. -/
theorem defaultPushDescendsFromSp : Obligations.DefaultPushDescendsFromSp := by
  intro x y z s stack ignore notX notY notZ
  have slots := slot_of_default s stack ignore
  have closed (r : Reg) (plain : r ∉ [.r5, .r7]) : r ∉ latched s.params .b ∧ r ≠ .r5 := by
    simp only [List.mem_cons, List.not_mem_nil, or_false, not_or] at plain
    exact ⟨(not_mem_latched s.params .b r).mpr fun r7 => absurd r7 plain.2, plain.1⟩
  obtain ⟨u, completes, -, sp, stored, -⟩ := exec_push_of_slots [x, y, z] s rfl (fun j _ => by rw [slots]; rfl)
  have word (j : Nat) (r : Reg) (atJ : [x, y, z][j]? = some r) (plain : r ∉ [.r5, .r7]) :
      (endClassB u).wordAt (lowAddr (s.getReg .r5 - BitVec.ofNat 16 (j + 1))) = some (s.getReg r) := by
    obtain ⟨notLatched, notSp⟩ := closed r plain
    obtain ⟨v, stores, exactly⟩ := stored j r _ atJ (slots j)
    rw [endClassB_wordAt, stores, exactly notLatched, if_neg notSp]
  refine ⟨endClassB u, completes, ?_, word 0 x rfl notX, word 1 y rfl notY, word 2 z rfl notZ⟩
  have delta : pushDelta s.params = -1 := by rw [pushDelta, stack]; rfl
  have three : BitVec.ofNat 16 [x, y, z].length = 3 := rfl
  rw [endClassB_getReg u .r5 (by simp), sp, pushSp, delta, three]
  ring

/-! ### Self-modification (R40) -/

theorem nextFetchSees_of_step (s t : State) (v : Word) (steps : step s = .next t) (running : t.halted = false) (pc : t.pc = s.pc + 1)
    (word : t.wordAt (s.pc + 1) = some v) : NextFetchSees s v := by
  rw [← pc] at word
  exact ⟨t, steps, running, pc, word, fun i decoded => step_of_decode_instr t v running word i decoded⟩

/-- Settles O25: each stores at the advanced pc and neither moves pc nor halts. -/
theorem storeIsSeenByTheNextFetch : Obligations.StoreIsSeenByTheNextFetch := by
  refine ⟨fun s w i running word decoded decodedNext => ?_, fun s w rs ra o running word decoded addr => ?_,
    fun s w regs k r running word decoded slots atK slotK => ?_⟩
  · have steps := step_of_decode_instr s w running word _ decoded
    rw [exec_stra] at steps
    obtain ⟨t, stepsTo, -, pc, stored, runs⟩ :=
      nextFetchSees_of_step s _ _ steps running rfl (memWrite_wordAt_self (s.pc + 1) _ (s.fetched w))
    exact ⟨t, stepsTo, pc, stored, runs i decodedNext⟩
  · have steps := step_of_decode_instr s w running word _ decoded
    rw [exec_strr_of_addr rs ra o (s.fetched w) (s.pc + 1) addr] at steps
    refine ⟨_, nextFetchSees_of_step s _ _ steps (by simp [running]) (by simp) (memWrite_wordAt_self (s.pc + 1) _ _),
      strr_source_of_closed rs ra (s.fetched w)⟩
  · obtain ⟨u, completes, pushes, -, stored, -⟩ :=
      exec_push_of_slots regs (s.fetched w) (decode_wellFormed w _ decoded) slots
    have steps := (step_of_decode_instr s w running word _ decoded).trans completes
    obtain ⟨-, pc, -, -, -, halted, -⟩ := pushAll_frame regs _ u pushes
    obtain ⟨v, stores, exactly⟩ := stored k r (s.pc + 1) atK slotK
    exact ⟨v, nextFetchSees_of_step s _ v steps (by simp [halted, running]) (by simp [pc]) (by simpa using stores), exactly⟩

end Sys2Proof.Machine
end

section
/-! POP, the mirror of a PUSH, and where both stop (spec/41_memory_ops.md R95 to R97; spec/60_exceptions.md R174). -/

namespace Sys2Proof.Machine

/-! ### What the iterations of POP do -/

/-- From `s`, popping `seq` with the words `ws` takes R5 through `sps`: iteration j reads `ws[j]` at the address of `sps[j]`. -/
def PopTrace (s : State) (seq : List Reg) (sps ws : List Word) : Prop :=
  ∀ j r w sp, seq[j]? = some r → ws[j]? = some w → sps[j]? = some sp →
    (effAddr s.params (popAt s.params sp)).bind s.wordAt = some w ∧
      sps[j + 1]? = some (if r = .r5 then w else sp - pushDelta s.params)

/-- The state after one iteration that reads the word `w` at the address `a`. -/
def afterPop (r : Reg) (a : Addr) (w : Word) (s : State) : State :=
  ((s.setMar a).setReg .r5 (s.getReg .r5 - pushDelta s.params)).setReg r w

theorem afterPop_getReg (r q : Reg) (a : Addr) (w : Word) (s : State) : (afterPop r a w s).getReg q =
    if q = r then w else if q = .r5 then s.getReg .r5 - pushDelta s.params else s.getReg q := by
  rw [afterPop, State.getReg_setReg, State.getReg_setReg, State.setMar_getReg]

/-- The words of a trace are in memory, so no iteration stops; a register keeps the word of its last occurrence. -/
theorem popAll_of_trace (seq : List Reg) (s : State) (sps ws : List Word) (words : ws.length = seq.length)
    (stackPointers : sps.length = seq.length + 1) (start : sps[0]? = some (s.getReg .r5)) (trace : PopTrace s seq sps ws) :
    ∃ t, popAll seq s = .ok t ∧ sps[seq.length]? = some (t.getReg .r5) ∧
      ∀ j r w, seq[j]? = some r → r ≠ .r5 → r ∉ seq.drop (j + 1) → ws[j]? = some w → t.getReg r = w := by
  induction seq generalizing s sps ws with
  | nil => exact ⟨s, rfl, start, fun j r w atJ => by simp at atJ⟩
  | cons r rest ih =>
    obtain ⟨w, ws, rfl⟩ := List.exists_cons_of_length_eq_add_one words
    obtain ⟨sp, sps, rfl⟩ := List.exists_cons_of_length_eq_add_one stackPointers
    cases start
    obtain ⟨read, moved⟩ := trace 0 r w (s.getReg .r5) rfl rfl rfl
    obtain ⟨a, addr, word⟩ := Option.bind_eq_some_iff.mp read
    have sp : (afterPop r a w s).getReg .r5 = if r = .r5 then w else s.getReg .r5 - pushDelta s.params := by
      rw [afterPop_getReg, if_pos rfl]
      exact if_congr eq_comm rfl rfl
    obtain ⟨t, pops, last, loaded⟩ := ih (afterPop r a w s) sps ws (Nat.succ.inj words) (Nat.succ.inj stackPointers)
      (by rw [sp]; exact moved) (fun j q v x atJ => trace (j + 1) q v x atJ)
    refine ⟨t, ?_, last, fun j q v atJ notSp later isV => ?_⟩
    · rw [popAll_cons, popOne_of_word r s a w addr word]
      exact pops
    · cases j with
      | zero =>
        cases atJ
        cases isV
        obtain ⟨-, -, -, -, -, -, -, -, getReg⟩ := popAll_frame rest _ t pops
        rw [getReg r notSp later, afterPop_getReg, if_pos rfl]
      | succ j => exact loaded j q v atJ notSp later isV

/-! ### POP -/

theorem popSequence_length (p : Config.Params) (regs : List Reg) : (popSequence p regs).length = regs.length := by
  unfold popSequence
  split <;> simp

theorem mem_popSequence (p : Config.Params) (regs : List Reg) (r : Reg) : r ∈ popSequence p regs ↔ r ∈ regs := by
  unfold popSequence
  split <;> simp

theorem popSequence_of_default (p : Config.Params) (regs : List Reg) (stack : p.stack = defaultStack) : popSequence p regs = regs := by
  rw [popSequence, stack]
  rfl

theorem exec_pop_of_nonempty (regs : List Reg) (s : State) (nonempty : regs ≠ []) :
    exec (.pop regs) s = stackEnd (popAll (popSequence s.params regs) s) := by
  obtain ⟨r, rest, rfl⟩ := List.exists_cons_of_ne_nil nonempty
  exact exec_pop_cons r rest s

/-- Settles O33: the iterations follow the trace, and the clobber at the end reaches R7 alone. -/
theorem popLoadsEachRegisterInOrder : Obligations.PopLoadsEachRegisterInOrder := by
  intro regs s sps ws wellFormed words stackPointers start trace
  obtain ⟨nonempty, -⟩ := (operandCountOk_iff regs).mp wellFormed
  rw [← popSequence_length s.params] at words stackPointers
  obtain ⟨u, pops, last, loaded⟩ := popAll_of_trace _ s sps ws words stackPointers start trace
  obtain ⟨params, pc, flags, -, -, mem, halted, -, getReg⟩ := popAll_frame _ s u pops
  have keeps (q : Reg) (outside : q ∉ latched s.params .b) : (endClassB u).getReg q = u.getReg q :=
    endClassB_getReg u q (params ▸ (not_mem_latched s.params .b q).mp outside)
  refine ⟨endClassB u, by rw [exec_pop_of_nonempty regs s nonempty, pops]; rfl, ?_, fun j r w atJ notSp later outside isW => ?_,
    fun q outside => ?_, sameMemory_of_mem s _ (by simp [mem]), by simp [flags], by simp [pc], by simp [halted]⟩
  · rw [endClassB_getReg u .r5 (by simp), ← popSequence_length s.params]
    exact last
  · rw [keeps r outside]
    exact loaded j r w atJ notSp later isW
  · rw [List.mem_append, List.mem_cons, not_or, not_or] at outside
    obtain ⟨⟨notSp, notNamed⟩, notLatched⟩ := outside
    rw [keeps q notLatched, getReg q notSp (mt (mem_popSequence _ _ _).mp notNamed)]

/-! ### POP of R5 with the default stack -/

/-- Settles O34: the traces are R5, the loaded word, and for a second register one word more. -/
theorem popOfStackPointerUsesTheLoadedValue : Obligations.PopOfStackPointerUsesTheLoadedValue := by
  intro s a v stack addr word
  have same (regs : List Reg) : popSequence s.params regs = regs := popSequence_of_default s.params regs stack
  have atSp (sp : Word) : popAt s.params sp = sp := by rw [popAt, stack]; rfl
  have up (sp : Word) : sp - pushDelta s.params = sp + 1 := by
    have delta : pushDelta s.params = -1 := by rw [pushDelta, stack]; rfl
    rw [delta]; ring
  have readV : (effAddr s.params (popAt s.params (s.getReg .r5))).bind s.wordAt = some v := by rw [atSp, addr]; exact word
  constructor
  · obtain ⟨t, completes, last, -, regsKept, rest⟩ := popLoadsEachRegisterInOrder [.r5] s [s.getReg .r5, v] [v] rfl rfl rfl rfl
      (fun j r w sp atJ isW isSp => by
        rw [same] at atJ
        match j with
        | 0 => cases atJ; cases isW; cases isSp; exact ⟨readV, rfl⟩
        | j + 1 => cases isW)
    refine ⟨t, completes, (Option.some.inj last).symm, fun q outside => regsKept q ?_, rest⟩
    simpa using outside
  · intro r b w notSp addrB wordB
    have readW : (effAddr s.params (popAt s.params v)).bind s.wordAt = some w := by rw [atSp, addrB]; exact wordB
    obtain ⟨t, completes, last, loaded, regsKept, rest⟩ := popLoadsEachRegisterInOrder [.r5, r] s [s.getReg .r5, v, v + 1] [v, w]
      rfl rfl rfl rfl
      (fun j q x sp atJ isX isSp => by
        rw [same] at atJ
        match j with
        | 0 => cases atJ; cases isX; cases isSp; exact ⟨readV, rfl⟩
        | 1 => cases atJ; cases isX; cases isSp; exact ⟨readW, by rw [if_neg notSp, up]; rfl⟩
        | j + 2 => cases isX)
    rw [same] at loaded
    refine ⟨t, completes, fun outside => loaded 1 r w rfl notSp (by simp) outside rfl, (Option.some.inj last).symm,
      fun q outside => regsKept q ?_, rest⟩
    simpa using outside

/-! ### A POP in mirror order undoes a PUSH -/

/-- A pop reads where the push before it wrote, under every convention. -/
theorem popAt_of_pushed (p : Config.Params) (sp : Word) : popAt p (sp + pushDelta p) = pushAt p sp := by
  unfold popAt pushAt
  split
  · rfl
  · ring

/-- After the iterations of a PUSH that names neither R5 nor R7, those of the POP in opposite order find the words pushed. -/
theorem popAll_reverse_of_pushAll (regs : List Reg) (s u t : State) (notSp : .r5 ∉ regs) (notMbr : .r7 ∉ regs)
    (short : regs.length ≤ 2048) (pushes : pushAll regs s = .ok u) (params : t.params = s.params) (mem : t.mem = u.mem)
    (sp : t.getReg .r5 = u.getReg .r5) :
    ∃ w, popAll regs.reverse t = .ok w ∧ w.getReg .r5 = s.getReg .r5 ∧ ∀ q, q ∈ regs → w.getReg q = s.getReg q := by
  induction regs generalizing s with
  | nil =>
    cases pushes
    exact ⟨t, rfl, sp, fun q named => by simp at named⟩
  | cons r rest ih =>
    rw [List.mem_cons, not_or] at notSp notMbr
    obtain ⟨a, addr, restPushes⟩ := pushAll_cons_ok r rest s u pushes
    obtain ⟨w, pops, spW, loaded⟩ := ih (afterPush r a s) notSp.2 notMbr.2 (by simp at short; omega) restPushes
      (by rw [params, afterPush_params])
    obtain ⟨paramsW, -, -, -, -, memW, -⟩ := popAll_frame _ t w pops
    rw [afterPush_sp] at spW
    have addrW : effAddr w.params (popAt w.params (w.getReg .r5)) = some a := by
      rw [paramsW, params, spW, popAt_of_pushed, ← slot_zero, addr]
    have wordW : w.wordAt a = some (s.getReg r) := by
      obtain ⟨v, word, exactly⟩ := (pushed_of_pushAll _ s u short pushes).stored 0 r a rfl addr
      rw [exactly ((not_mem_latched _ _ _).mpr fun r7 => absurd r7.symm notMbr.1), if_neg (Ne.symm notSp.1)] at word
      rw [State.wordAt, memW, mem]
      exact word
    refine ⟨afterPop r a (s.getReg r) w, ?_, ?_, fun q named => ?_⟩
    · rw [List.reverse_cons, popAll_append, pops]
      show popAll [r] w = _
      rw [popAll_cons, popOne_of_word r w a _ addrW wordW]
      rfl
    · rw [afterPop_getReg, if_neg notSp.1, if_pos rfl, spW, paramsW, params, add_sub_cancel_right]
    · rw [afterPop_getReg]
      split
      · next isR => rw [isR]
      · next notR =>
        have inRest : q ∈ rest := (List.mem_cons.mp named).resolve_left notR
        have notR5 : q ≠ .r5 := fun r5 => notSp.2 (r5 ▸ inRest)
        rw [if_neg notR5, loaded q inRest, afterPush_getReg r q a s notR5]

/-- Settles O36: a register the POP loads has its word back, and no other but R5 was changed. -/
theorem popInMirrorOrderUndoesPush : Obligations.PopInMirrorOrderUndoesPush := by
  intro regs s t wellFormed notSp notMbr stack pushed
  obtain ⟨nonempty, short⟩ := (operandCountOk_iff regs).mp wellFormed
  obtain ⟨u, pushes, rfl⟩ := execPush_next regs s t pushed
  obtain ⟨paramsU, pcU, flagsU, -⟩ := pushAll_frame regs s u pushes
  obtain ⟨w, pops, spBack, loaded⟩ := popAll_reverse_of_pushAll regs s u (endClassB u) notSp notMbr (by omega) pushes
    (by rw [endClassB_params, paramsU]) (endClassB_mem u) (endClassB_getReg u .r5 (by simp))
  obtain ⟨paramsW, pcW, flagsW, -, -, memW, -, -, getRegW⟩ := popAll_frame _ _ w pops
  rw [endClassB_params, paramsU] at paramsW
  refine ⟨endClassB w, ?_, fun q outside => ?_, sameMemory_of_mem _ _ (by rw [endClassB_mem, memW]), by simp [flagsW, flagsU],
    by simp [pcW, pcU]⟩
  · rw [exec_pop_of_nonempty _ _ (by simpa using nonempty), popSequence_of_default _ _ (by rw [endClassB_params, paramsU, stack]),
      pops]
    rfl
  · rw [endClassB_getReg w q (paramsW ▸ (not_mem_latched s.params .b q).mp outside)]
    by_cases sp : q = .r5
    · rw [sp, spBack]
    by_cases named : q ∈ regs
    · exact loaded q named
    · rw [getRegW q sp (by simpa using named)]
      exact push_sameRegsBut regs s u pushes q (by simp [sp, outside])

/-! ### Where PUSH and POP stop -/

theorem pushAll_of_stop (regs : List Reg) (k : Nat) (s u : State) (f : Fault) (inList : k < regs.length)
    (pushes : pushAll (regs.take k) s = .ok u) (stops : pushOne regs[k] u = .error f) : pushAll regs s = .error f := by
  rw [← List.take_append_drop k regs, pushAll_append, pushes, List.drop_eq_getElem_cons inList]
  show pushAll (regs[k] :: _) u = _
  rw [pushAll_cons, stops]
  rfl

/-- PUSH stops in the first iteration whose slot is refused, in the state its earlier iterations leave. -/
theorem exec_push_stops (regs : List Reg) (k : Nat) (s : State) (inList : k < regs.length)
    (slots : ∀ j, j < k → (slot s j).isSome = true) (refused : slot s k = none) (short : regs.length ≤ 2048) :
    ∃ u, exec (.push regs) s = .fault (.addressRange (pushAt s.params (pushSp s k)) u) ∧ pushAll (regs.take k) s = .ok u ∧
      Pushed (regs.take k) s u := by
  have taken : (regs.take k).length = k := List.length_take_of_le (Nat.le_of_lt inList)
  obtain ⟨u, pushes⟩ := pushAll_of_slots (regs.take k) s (by rwa [taken])
  have pushed := pushed_of_pushAll (regs.take k) s u (by omega) pushes
  obtain ⟨params, -⟩ := pushAll_frame _ s u pushes
  have spU : u.getReg .r5 = pushSp s k := by rw [pushed.sp, taken]
  have stops : pushOne regs[k] u = .error (.addressRange (pushAt s.params (pushSp s k)) u) :=
    (pushOne_error_iff _ u _).mpr (by rw [params, spU]; exact ⟨refused, rfl⟩)
  have whole := pushAll_of_stop regs k s u _ inList pushes stops
  obtain ⟨r, rest, rfl⟩ := List.exists_cons_of_ne_nil (List.ne_nil_of_length_pos (Nat.zero_lt_of_lt inList))
  exact ⟨u, by rw [exec_push_cons, whole]; rfl, pushes, pushed⟩

/-- An iteration of POP that finds no address or no word stops; only MAR may have moved. -/
theorem popOne_stops (r : Reg) (t : State) (unread : (effAddr t.params (popAt t.params (t.getReg .r5))).bind t.wordAt = none) :
    ∃ f m, popOne r t = .error f ∧
      (effAddr t.params (popAt t.params (t.getReg .r5)) = none → f = .addressRange (popAt t.params (t.getReg .r5)) (t.setMar m)) ∧
      ∀ a, effAddr t.params (popAt t.params (t.getReg .r5)) = some a → f = .unsetRead a (t.setMar m) := by
  cases addr : effAddr t.params (popAt t.params (t.getReg .r5)) with
  | none =>
    exact ⟨_, t.mar, (popOne_error_iff r t _).mpr (.inl ⟨addr, rfl⟩), fun _ => rfl, fun a impossible => by cases impossible⟩
  | some a =>
    rw [addr] at unread
    exact ⟨_, a, (popOne_error_iff r t _).mpr (.inr ⟨a, addr, unread, rfl⟩), fun impossible => (by cases impossible),
      fun b same => by cases same; rfl⟩

theorem popAll_of_stop (seq : List Reg) (k : Nat) (s t : State) (f : Fault) (inList : k < seq.length)
    (pops : popAll (seq.take k) s = .ok t) (stops : popOne seq[k] t = .error f) : popAll seq s = .error f := by
  rw [← List.take_append_drop k seq, popAll_append, pops, List.drop_eq_getElem_cons inList]
  show popAll (seq[k] :: _) t = _
  rw [popAll_cons, stops]
  rfl

theorem getElem?_of_take {l : List Reg} {k j : Nat} {r : Reg} (atJ : (l.take k)[j]? = some r) : l[j]? = some r := by
  rw [List.getElem?_take] at atJ
  split at atJ
  · exact atJ
  · cases atJ

/-- Settles O37: the iterations before k go on as in a whole PUSH or POP of their registers alone. -/
theorem stackAccessStops : Obligations.StackAccessStops := by
  constructor
  · intro regs k s wellFormed inList slots refused
    obtain ⟨-, short⟩ := (operandCountOk_iff regs).mp wellFormed
    obtain ⟨u, stops, pushes, sp, stored, others⟩ := exec_push_stops regs k s inList slots refused (by omega)
    obtain ⟨-, pc, flags, -, -, halted, getReg⟩ := pushAll_frame _ s u pushes
    rw [List.length_take_of_le (Nat.le_of_lt inList)] at sp others
    refine ⟨u, stops, sp, fun j r a before atJ outside slotJ => ?_, others, fun q outside => getReg q (by simpa using outside),
      flags, pc, halted⟩
    obtain ⟨v, word, exactly⟩ := stored j r a (by rwa [List.getElem?_take_of_lt before]) slotJ
    rw [word, exactly outside]
    rfl
  · intro regs k s sps ws sp wellFormed inList words stackPointers start trace spK unread
    obtain ⟨nonempty, -⟩ := (operandCountOk_iff regs).mp wellFormed
    rw [← popSequence_length s.params] at inList
    have taken : ((popSequence s.params regs).take k).length = k := List.length_take_of_le (Nat.le_of_lt inList)
    obtain ⟨t, pops, last, loaded⟩ := popAll_of_trace ((popSequence s.params regs).take k) s sps ws (by rw [words, taken])
      (by rw [stackPointers, taken]) start (fun j r w x atJ => trace j r w x (getElem?_of_take atJ))
    obtain ⟨params, pc, flags, -, -, mem, halted, -, getReg⟩ := popAll_frame _ s t pops
    rw [taken, spK] at last
    cases last
    have reads : t.wordAt = s.wordAt := funext (sameMemory_of_mem s t mem)
    rw [← params, ← reads] at unread
    obtain ⟨f, m, stops, range, unset⟩ := popOne_stops (popSequence s.params regs)[k] t unread
    rw [params] at range unset
    refine ⟨f, t.setMar m, ?_, range, unset, rfl, loaded, fun q outside => ?_, sameMemory_of_mem s _ mem, flags, pc, halted⟩
    · rw [exec_pop_of_nonempty regs s nonempty, popAll_of_stop _ k s t f inList pops stops]
      rfl
    · rw [List.mem_cons, not_or] at outside
      exact getReg q outside.1 outside.2

end Sys2Proof.Machine
end
